-- ==== Sys2Proof/Word.lean ====
section
/-! DEFINITION. The two word types of the block: a byte of the buffer (00_scope.md R5, byte width 8) and a 32-bit
register or command word (R5, R40). Arithmetic on bytes is the wrapping arithmetic of bit vectors; every other value of the
rules is an unbounded natural number (00_scope.md R6). -/

namespace Sys2Proof

/-- One byte of `BUF`. -/
abbrev Byte := BitVec 8

/-- A command word or a register value. -/
abbrev Word := BitVec 32

end Sys2Proof
end

