-- ==== Sys2Proof/Syntax.lean ====
section
/-! DEFINITION. The 15 operations of the block, one constructor for each row of spec/opcode_table.json, and their
mnemonics (30_encoding.md R42). A buffer index, a slice's start, a length and an exponent are numbers; the byte to store and a
character code are bytes (30_encoding.md R41). -/

namespace Sys2Proof

/-- One operation with its operands (30_encoding.md R41, R42). -/
inductive Instr where
  /-- `STB A, B`: store the byte `B` at index `A` (R51). -/
  | stb (index : Nat) (byte : Byte)
  /-- `LDB A`: load the byte at index `A` (R52). -/
  | ldb (index : Nat)
  /-- `CLRB`: clear the buffer (R53). -/
  | clrb
  /-- `XORR A, B`: XOR checksum of a slice (R57). -/
  | xorr (start len : Nat)
  /-- `XORS`: XOR checksum of the sentence (R58). -/
  | xors
  /-- `CKF`: extract the checksum field (R59). -/
  | ckf
  /-- `VFY`: verify the sentence checksum (R60). -/
  | vfy
  /-- `LOC`: locate the sentence markers (R61). -/
  | loc
  /-- `ADDS A, B`: additive checksum of a slice (R63). -/
  | adds (start len : Nat)
  /-- `ADDV A, B`: verify an additive checksum (R64). -/
  | addv (start len : Nat)
  /-- `HEXN A`: hex digit to nibble (R68). -/
  | hexn (char : Byte)
  /-- `DECN A`: decimal digit to value (R69). -/
  | decn (char : Byte)
  /-- `POW10 A`: power-of-ten lookup (R70). -/
  | pow10 (exponent : Nat)
  /-- `HEXR A, B`: hex run to unsigned integer (R71). -/
  | hexr (start len : Nat)
  /-- `DECR A, B`: decimal run to unsigned integer (R72). -/
  | decr (start len : Nat)
  deriving DecidableEq, Repr

/-- The mnemonic, in upper case (R42, R46). -/
def Instr.mnemonic : Instr → String
  | .stb _ _ => "STB"
  | .ldb _ => "LDB"
  | .clrb => "CLRB"
  | .xorr _ _ => "XORR"
  | .xors => "XORS"
  | .ckf => "CKF"
  | .vfy => "VFY"
  | .loc => "LOC"
  | .adds _ _ => "ADDS"
  | .addv _ _ => "ADDV"
  | .hexn _ => "HEXN"
  | .decn _ => "DECN"
  | .pow10 _ => "POW10"
  | .hexr _ _ => "HEXR"
  | .decr _ _ => "DECR"

end Sys2Proof
end

