-- ==== Sys2Proof/WellFormed.lean ====
section
/-! DEFINITION. Which operations have a command word: a numeric operand fits its 8-bit field (30_encoding.md R40, R41: each
operand is "an unsigned number 0 to 255"). An index of 128 to 255 is well formed: the operation runs and ends with RANGE. -/

namespace Sys2Proof

/-- The operand fits an 8-bit field of the command word (R40, R41). -/
abbrev fitsField (n : Nat) : Prop := n < 256

/-- The operation has a command word. -/
def Instr.wellFormed : Instr → Bool
  | .stb a _ => decide (fitsField a)
  | .ldb a => decide (fitsField a)
  | .clrb => true
  | .xorr a b => decide (fitsField a) && decide (fitsField b)
  | .xors => true
  | .ckf => true
  | .vfy => true
  | .loc => true
  | .adds a b => decide (fitsField a) && decide (fitsField b)
  | .addv a b => decide (fitsField a) && decide (fitsField b)
  | .hexn _ => true
  | .decn _ => true
  | .pow10 n => decide (fitsField n)
  | .hexr a b => decide (fitsField a) && decide (fitsField b)
  | .decr a b => decide (fitsField a) && decide (fitsField b)

end Sys2Proof
end

