-- ==== Sys2Proof/Decode.lean ====
section
/-! DEFINITION. The command word: its fields, the decoding procedure of 30_encoding.md R43 (total, rejecting by name), the
encoder, and the opcode map of R42 as a table of rows. -/

namespace Sys2Proof

/-- Why a word is illegal: the four checks of R43. Each gives the one error `ILLEGAL`; the names say which check failed. -/
inductive Illegal where
  /-- The reserved field `C` is not 0. -/
  | reservedField
  /-- `op` is not one of the 15 opcodes. -/
  | unknownOpcode
  /-- The operation does not use `A` and `A` is not 0. -/
  | unusedA
  /-- The operation does not use `B` and `B` is not 0. -/
  | unusedB
  deriving DecidableEq, Repr

/-- `op = w[31:24]` (R40). -/
def fieldOp (w : Word) : Byte := w.extractLsb' 24 8
/-- `A = w[23:16]` (R40). -/
def fieldA (w : Word) : Byte := w.extractLsb' 16 8
/-- `B = w[15:8]` (R40). -/
def fieldB (w : Word) : Byte := w.extractLsb' 8 8
/-- `C = w[7:0]` (R40). -/
def fieldC (w : Word) : Byte := w.extractLsb' 0 8

/-- `w = [op, A, B, C]`, `op` in the most significant byte (R40). -/
def commandWord (op a b c : Byte) : Word := op ++ a ++ b ++ c

/-- An operation that uses `A` only: `B` must be 0 (R43). -/
def usesAOnly (i : Instr) (b : Byte) : Except Illegal Instr :=
  if b = 0 then .ok i else .error .unusedB

/-- An operation without operands: `A` must be 0, then `B` must be 0 (R43). -/
def usesNothing (i : Instr) (a b : Byte) : Except Illegal Instr :=
  if a = 0 then usesAOnly i b else .error .unusedA

/-- The opcode map of R42 with the unused-operand checks of R43. -/
def decodeOp (op a b : Byte) : Except Illegal Instr :=
  match op with
  | 0x01#8 => .ok (.stb a.toNat b)
  | 0x02#8 => usesAOnly (.ldb a.toNat) b
  | 0x03#8 => usesNothing .clrb a b
  | 0x10#8 => .ok (.xorr a.toNat b.toNat)
  | 0x11#8 => usesNothing .xors a b
  | 0x12#8 => usesNothing .ckf a b
  | 0x13#8 => usesNothing .vfy a b
  | 0x14#8 => usesNothing .loc a b
  | 0x20#8 => .ok (.adds a.toNat b.toNat)
  | 0x21#8 => .ok (.addv a.toNat b.toNat)
  | 0x30#8 => usesAOnly (.hexn a) b
  | 0x31#8 => usesAOnly (.decn a) b
  | 0x32#8 => usesAOnly (.pow10 a.toNat) b
  | 0x33#8 => .ok (.hexr a.toNat b.toNat)
  | 0x34#8 => .ok (.decr a.toNat b.toNat)
  | _ => .error .unknownOpcode

/-- The decoding procedure of R43, applied to every word written to `CMD`. It reads no state. -/
def decode (w : Word) : Except Illegal Instr :=
  if fieldC w = 0 then decodeOp (fieldOp w) (fieldA w) (fieldB w) else .error .reservedField

/-- The command word of an operation (R40, R42); `C` and the unused operands are 0. -/
def encode : Instr → Word
  | .stb a v => commandWord 0x01 (BitVec.ofNat 8 a) v 0
  | .ldb a => commandWord 0x02 (BitVec.ofNat 8 a) 0 0
  | .clrb => commandWord 0x03 0 0 0
  | .xorr a b => commandWord 0x10 (BitVec.ofNat 8 a) (BitVec.ofNat 8 b) 0
  | .xors => commandWord 0x11 0 0 0
  | .ckf => commandWord 0x12 0 0 0
  | .vfy => commandWord 0x13 0 0 0
  | .loc => commandWord 0x14 0 0 0
  | .adds a b => commandWord 0x20 (BitVec.ofNat 8 a) (BitVec.ofNat 8 b) 0
  | .addv a b => commandWord 0x21 (BitVec.ofNat 8 a) (BitVec.ofNat 8 b) 0
  | .hexn c => commandWord 0x30 c 0 0
  | .decn c => commandWord 0x31 c 0 0
  | .pow10 n => commandWord 0x32 (BitVec.ofNat 8 n) 0 0
  | .hexr a b => commandWord 0x33 (BitVec.ofNat 8 a) (BitVec.ofNat 8 b) 0
  | .decr a b => commandWord 0x34 (BitVec.ofNat 8 a) (BitVec.ofNat 8 b) 0

/-- A row of the opcode map: `w` is the row's operation exactly when `w &&& mask = matchBits` (R42). -/
structure OpcodeRow where
  mnemonic  : String
  matchBits : Word
  mask      : Word
  deriving DecidableEq, Repr

/-- The columns "match" and "mask" of R42, row by row, written from the table and not from `decodeOp`. -/
def opcodeTable : List OpcodeRow :=
  [⟨"STB", 0x01000000, 0xFF0000FF⟩, ⟨"LDB", 0x02000000, 0xFF00FFFF⟩, ⟨"CLRB", 0x03000000, 0xFFFFFFFF⟩] ++
  [⟨"XORR", 0x10000000, 0xFF0000FF⟩, ⟨"XORS", 0x11000000, 0xFFFFFFFF⟩, ⟨"CKF", 0x12000000, 0xFFFFFFFF⟩,
   ⟨"VFY", 0x13000000, 0xFFFFFFFF⟩, ⟨"LOC", 0x14000000, 0xFFFFFFFF⟩] ++
  [⟨"ADDS", 0x20000000, 0xFF0000FF⟩, ⟨"ADDV", 0x21000000, 0xFF0000FF⟩] ++
  [⟨"HEXN", 0x30000000, 0xFF00FFFF⟩, ⟨"DECN", 0x31000000, 0xFF00FFFF⟩, ⟨"POW10", 0x32000000, 0xFF00FFFF⟩,
   ⟨"HEXR", 0x33000000, 0xFF0000FF⟩, ⟨"DECR", 0x34000000, 0xFF0000FF⟩]

/-- `w` matches the row under the row's mask (R42). -/
abbrev OpcodeRow.matches (r : OpcodeRow) (w : Word) : Prop := w &&& r.mask = r.matchBits

/-- The 32-bit command word that has the bits `w`, of which `nbits` count; the bits above are 0. -/
def tableWord (nbits w : Nat) : Word := BitVec.ofNat 32 (w % 2 ^ nbits)

/-- The operation the decoder reads from a word given as a number, or none where the word is illegal. A command word is one
32-bit quantity written to `CMD`: it has no byte order (20_memory.md R23). -/
def decodeTableWord (nbits w : Nat) : Option Instr :=
  match decode (tableWord nbits w) with
  | .ok i => some i
  | .error _ => none

end Sys2Proof
end

