-- ==== Sys2Proof/Config.lean ====
section
/-! DEFINITION. What is fixed for the hardware (the parameter table of 00_scope.md R5) and the free values: constants with
no body, of which nothing can be proved. -/

namespace Sys2Proof.Config

/-- `BUF_CAP`, the capacity of the buffer in bytes (R5, decision D3). -/
abbrev bufCap : Nat := 128

/-- `HEX_MAX`, the longest hex run (R5, decision D16). -/
abbrev hexMax : Nat := 8

/-- `DEC_MAX`, the longest decimal run (R5, decision D16). -/
abbrev decMax : Nat := 9

/-- The sentence start marker `$` (R5; the code is ASCII, 93_implementation_defined.md G1: log 12). -/
abbrev startMarker : Byte := 0x24#8

/-- The checksum marker `*` (R5; the code is ASCII, G1: log 12). -/
abbrev checksumMarker : Byte := 0x2A#8

/-- The two values of the parameter `HEX_LOWERCASE` (R5, 93_implementation_defined.md U1). -/
inductive HexLowercase where
  | reject
  | accept
  deriving DecidableEq, Repr

/-- `HEX_LOWERCASE` has the value `reject` (R5, R65, decision D12; log 9). -/
abbrev hexLowercase : HexLowercase := .reject

/-- `BUF_INIT`: `bufInit n i` is the byte at index `i` that the reset numbered `n` leaves. A FREE VALUE: the spec leaves the
contents unspecified and asks that a claim hold for all of them (10_state.md R19, 93_implementation_defined.md U4; log 1). -/
opaque bufInit : Nat → Nat → Byte

/-- What the model's total read of one byte gives for an index that is not listed in the memory. A FREE VALUE: no such
index exists in the buffer (20_memory.md R27), and no state that meets `Memory.wf` reads one in an operation (log 2). -/
opaque absentByte : Nat → Byte

end Sys2Proof.Config
end

