-- ==== Sys2Proof/Machine/Memory.lean ====
section
/-! DEFINITION. The buffer `BUF` as plain data: a list of (index, byte) cells in one canonical form, and the only memory
primitives there are, reading and writing one byte (20_memory.md R27). The canonical form lists exactly the indices 0 to
127, rising: all 128 bytes exist and hold a value at every moment (10_state.md R10, R19), so nothing is left unlisted that could be
read, and equal buffers are equal lists (log 2). -/

namespace Sys2Proof.Machine

/-- The cells of the buffer, (index, byte). -/
abbrev Memory := List Host.Cell

/-- The buffer whose byte at each index `i` is `f i`. -/
def Memory.fill (f : Nat → Byte) : Memory := (List.range Config.bufCap).map fun i => (i, f i)

/-- The canonical form: the listed indices are 0, 1, …, `BUF_CAP - 1`, in that order (10_state.md R10; log 2). -/
def Memory.wf (m : Memory) : Bool := m.map Prod.fst == List.range Config.bufCap

/-- The byte listed at index `i`; an index that is not listed does not exist and has no value (20_memory.md R27). -/
def Memory.read : Memory → Nat → Option Byte
  | [], _ => none
  | (a, v) :: m, i => if a = i then some v else Memory.read m i

/-- `MemRead(i, 1)`, made total: the byte at index `i`, a free value where there is none (00_scope.md R6; log 2). -/
def Memory.byte (m : Memory) (i : Nat) : Byte := (m.read i).getD (Config.absentByte i)

/-- `MemWrite(i, 1, v)`: index `i` holds `v`, the cells stay in rising order, every other cell stays (00_scope.md R6). -/
def Memory.write : Memory → Nat → Byte → Memory
  | [], i, w => [(i, w)]
  | (a, v) :: m, i, w =>
    if i < a then (i, w) :: (a, v) :: m
    else if a = i then (i, w) :: m
    else (a, v) :: Memory.write m i w

/-- The bytes `BUF[lo], …, BUF[hi-1]` in order of rising index; none when `lo >= hi`. -/
def Memory.slice (m : Memory) (lo hi : Nat) : List Byte := (List.range' lo (hi - lo)).map m.byte

end Sys2Proof.Machine
end

