-- ==== Sys2Proof/Machine/State.lean ====
section
/-! DEFINITION. The state: the block's buffer, result register and status register (10_state.md R9, which says this is the
whole of it), and the host agent's part of the model (70_reset_and_hazards.md R105): the accesses still to come, the
value the last read returned, and a count of resets that selects a fresh `BUF_INIT`. -/

namespace Sys2Proof.Machine

/-- The errors that end an operation (60_exceptions.md R82); `OK` is the absence of one. -/
inductive ErrorCode where
  /-- `MARKER_NOT_FOUND`, code 1 (R83). -/
  | markerNotFound
  /-- `RANGE`, code 2 (R84). -/
  | range
  /-- `ILLEGAL`, code 3 (R85). -/
  | illegal
  deriving DecidableEq, Repr

/-- The six implemented bits of `STATUS` (10_state.md R9, R16); bits 31:6 are hard-wired 0 and are not storage (R20). -/
structure Status where
  /-- `ERR`, bits 3:0. -/
  err     : BitVec 4
  /-- `OOR`, bit 4. -/
  oor     : Bool
  /-- `MATCH`, bit 5. -/
  matched : Bool
  deriving DecidableEq, Repr

/-- How an operation ends without error: what it writes to `RES`, `OOR` and `MATCH` (40_buffer_ops.md R50). -/
structure Result where
  res     : Word
  oor     : Bool
  matched : Bool
  deriving DecidableEq, Repr

/-- The width of a register access (20_memory.md R26: 32 bits is the only one of the interface). -/
inductive Width where
  | bits8
  | bits16
  | bits32
  deriving DecidableEq, Repr

/-- What the host may do to the block (70_reset_and_hazards.md R105), with the accesses R26 leaves out of the interface
written down too so that they can be refused. Offsets are byte offsets from the block's base address (10_state.md R15). -/
inductive Access where
  /-- A write of `value` at `offset`. -/
  | write (width : Width) (offset : Nat) (value : Word)
  /-- A read at `offset`. -/
  | read (width : Width) (offset : Nat)
  /-- The platform asserts and releases reset (70_reset_and_hazards.md R95). -/
  | reset
  deriving DecidableEq, Repr

/-- The block (`buf`, `res`, `status`) and the host beside it (`host`, `readData`, `resets`). -/
structure State where
  /-- `BUF`, 128 bytes (R10). -/
  buf      : Memory
  /-- `RES`, 32 bits (R11). -/
  res      : Word
  /-- `STATUS`, its implemented bits (R16). -/
  status   : Status
  /-- The model's own: the host's accesses still to come, the next one first (R105; log 3). -/
  host     : List Access
  /-- The model's own: what the most recent register read returned; none before any read (log 5). -/
  readData : Option Word
  /-- The model's own: the number of resets so far, which selects the free `BUF_INIT` (log 6). -/
  resets   : Nat
  deriving DecidableEq, Repr

/-- Reasons for the machine to stop with a fault. There is none: every word written to `CMD` produces a defined outcome and
no access can hang (93_implementation_defined.md, end of part 1; 70_reset_and_hazards.md R105; log 14). -/
inductive Fault where
  deriving DecidableEq, Repr

/-- Reasons for a step without a meaning. -/
inductive Refusal where
  /-- An instruction that has no meaning in the model yet; raised by no arm of this model. Safe. -/
  | notModelled (mnemonic : String)
  /-- A register access that is not 32 bits wide or not aligned to 4 bytes, raised by `serve`: it is not part of the
  interface, has no defined effect, and a model refuses it (20_memory.md R26, 93_implementation_defined.md U5; log 7). Safe. -/
  | accessOutsideInterface (width : Width) (offset : Nat)
  deriving DecidableEq, Repr

/-- The machine when reset is released (10_state.md R19, 70_reset_and_hazards.md R95): `STATUS = 0`, `RES = 0`, `BUF` holds an
unspecified byte at every index (log 1), and the host has neither queued nor read anything yet (log 3, log 5, log 6). -/
def State.reset : State where
  buf      := Memory.fill (Config.bufInit 0)
  res      := 0
  status   := ⟨0, false, false⟩
  host     := []
  readData := none
  resets   := 0

end Sys2Proof.Machine
end

