-- ==== Sys2Proof/Machine/Flags.lean ====
section
/-! DEFINITION. The status register as a word and every flag computation: the error codes (60_exceptions.md R82), the layout of
`STATUS` (10_state.md R16), the packing of results into `RES` (10_state.md R11). -/

namespace Sys2Proof.Machine

/-- The number of an error code (60_exceptions.md R82). -/
def ErrorCode.code : ErrorCode → BitVec 4
  | .markerNotFound => 1
  | .range => 2
  | .illegal => 3

/-- `STATUS <- [ERR=OK, OOR=o, MATCH=m]` (00_scope.md R6). -/
def Status.ok (oor matched : Bool) : Status := ⟨0, oor, matched⟩

/-- `STATUS <- [ERR=code, OOR=0, MATCH=0]` (60_exceptions.md R80). -/
def Status.ofError (e : ErrorCode) : Status := ⟨e.code, false, false⟩

/-- The 32 bits a read of `STATUS` returns: `ERR` in 3:0, `OOR` in 4, `MATCH` in 5, and 31:6 hard-wired 0 (10_state.md R16,
R20). -/
def Status.word (st : Status) : Word := 0#26 ++ BitVec.ofBool st.matched ++ BitVec.ofBool st.oor ++ st.err

/-- The four bytes of `RES`, the most significant first (10_state.md R11). -/
def packBytes (b3 b2 b1 b0 : Byte) : Word := b3 ++ b2 ++ b1 ++ b0

/-- A byte as a whole result: `zext_32` (00_scope.md R6). -/
def zext32 (b : Byte) : Word := b.setWidth 32

/-- An index as a byte of a result, `i[7:0]`. -/
def indexByte (i : Nat) : Byte := BitVec.ofNat 8 i

/-- The byte of two hex digits, the high nibble first: `h*16 + l` (41_xor_checksum.md R59, R60). -/
def nibblePair (h l : Nat) : Byte := BitVec.ofNat 8 (h * 16 + l)

/-- A result with neither flag set (40_buffer_ops.md R50: flags a rule does not mention are written 0). -/
def Result.plain (v : Word) : Result := ⟨v, false, false⟩

/-- A result of a decoder, with its `OOR` flag. -/
def Result.decoded (v : Word) (oor : Bool) : Result := ⟨v, oor, false⟩

end Sys2Proof.Machine
end

