-- ==== Sys2Proof/Machine/Operands.lean ====
section
/-! DEFINITION. Every operand form: the checks on an index and a slice (60_exceptions.md R84, sums without wrap-around,
30_encoding.md R41), and what a character or an exponent stands for (43_field_decoder.md R65 to R67). A decoder answers a value and
whether its input was out of range; an out-of-range input has the value 0 and is no error. -/

namespace Sys2Proof.Machine

/-- The index exists: `A < BUF_CAP` (R84). -/
abbrev inBuffer (i : Nat) : Prop := i < Config.bufCap

/-- The slice of `len` bytes from `start` lies in the buffer: not `A + B > BUF_CAP` (R84). -/
abbrev sliceFits (start len : Nat) : Prop := start + len ≤ Config.bufCap

/-- `nib` for either value of `HEX_LOWERCASE` (43_field_decoder.md R65; 93_implementation_defined.md U1 for `accept`). -/
def nibWith (lower : Config.HexLowercase) (c : Byte) : Nat × Bool :=
  if 0x30 ≤ c.toNat ∧ c.toNat ≤ 0x39 then (c.toNat - 0x30, false)
  else if 0x41 ≤ c.toNat ∧ c.toNat ≤ 0x46 then (c.toNat - 0x41 + 10, false)
  else if lower = .accept ∧ 0x61 ≤ c.toNat ∧ c.toNat ≤ 0x66 then (c.toNat - 0x57, false)
  else (0, true)

/-- `nib(c)`: ASCII hex digit to nibble, and whether `c` is out of range (R65). -/
def nib (c : Byte) : Nat × Bool := nibWith Config.hexLowercase c

/-- `dig(c)`: ASCII decimal digit to value, and whether `c` is out of range (R66). -/
def dig (c : Byte) : Nat × Bool :=
  if 0x30 ≤ c.toNat ∧ c.toNat ≤ 0x39 then (c.toNat - 0x30, false) else (0, true)

/-- The power-of-ten table, entries 0 to 9 (R67). -/
def pow10Table : List Nat :=
  [1, 10, 100, 1000, 10000] ++ [100000, 1000000, 10000000, 100000000, 1000000000]

/-- `pow10(n)`: the table's entry `n`, and whether `n` is out of range (R67). -/
def pow10 (n : Nat) : Nat × Bool :=
  match pow10Table[n]? with
  | some p => (p, false)
  | none => (0, true)

end Sys2Proof.Machine
end

