-- ==== Sys2Proof/Machine/Ops.lean ====
section
/-! DEFINITION. The named operations the meanings share: how an operation ends (with a result, or with an error: the block's
only exception mechanism, 60_exceptions.md R80), the marker search (41_xor_checksum.md R56), the folds over a byte slice (R55,
42_additive_checksum.md R62) and the digit runs (43_field_decoder.md R71, R72). -/

namespace Sys2Proof.Machine

/-- Ending without error: all of `RES` and `STATUS` is written once (10_state.md R11, R16; 40_buffer_ops.md R50). -/
def State.complete (s : State) (r : Result) : State :=
  { s with res := r.res, status := Status.ok r.oor r.matched }

/-- `raise e`: `RES <- 0`, `STATUS <- [ERR=e, OOR=0, MATCH=0]`, `BUF` unchanged, nothing saved, control goes nowhere
(60_exceptions.md R80). There is no return from an error: the next operation runs as if it had not happened (R81). -/
def State.raise (s : State) (e : ErrorCode) : State :=
  { s with res := 0, status := Status.ofError e }

/-- The one way an operation that leaves `BUF` alone ends: by its result or by its error (40_buffer_ops.md R50). -/
def State.finish (s : State) : Except ErrorCode Result → State
  | .ok r => s.complete r
  | .error e => s.raise e

/-- `find(c, from)`: the least index `i` with `from <= i < BUF_CAP` and `BUF[i] = c`, none where there is none
(41_xor_checksum.md R56). -/
def find (m : Memory) (c : Byte) (start : Nat) : Option Nat :=
  (List.range' start (Config.bufCap - start)).find? fun i => m.byte i == c

/-- The exclusive OR of a list of bytes, from 0 (R55). -/
def xorBytes (bytes : List Byte) : Byte := bytes.foldl (· ^^^ ·) 0

/-- `xorfold(lo, hi)` (R55). -/
def xorfold (m : Memory) (lo hi : Nat) : Byte := xorBytes (m.slice lo hi)

/-- One step of the additive pair: `ckA` takes the byte, then `ckB` takes the new `ckA`, both modulo 256
(42_additive_checksum.md R62). -/
def addStep (ck : Byte × Byte) (d : Byte) : Byte × Byte := (ck.1 + d, ck.2 + (ck.1 + d))

/-- The additive pair of a list of bytes, from (0, 0) (R62). -/
def addBytes (bytes : List Byte) : Byte × Byte := bytes.foldl addStep (0, 0)

/-- `addfold(lo, hi)` (R62). -/
def addfold (m : Memory) (lo hi : Nat) : Byte × Byte := addBytes (m.slice lo hi)

/-- The sentence markers: the first `$` of the buffer and the first `*` after it (R56). The `$` is sought first
(60_exceptions.md R86). -/
def sentenceMarkers (m : Memory) : Except ErrorCode (Nat × Nat) :=
  match find m Config.startMarker 0 with
  | none => .error .markerNotFound
  | some s =>
    match find m Config.checksumMarker (s + 1) with
    | none => .error .markerNotFound
    | some e => .ok (s, e)

/-- The checksum field after the `*` at index `e`: its value and whether either digit is out of range; RANGE where the two
digits do not lie in the buffer (R59, R60). -/
def checksumField (m : Memory) (e : Nat) : Except ErrorCode (Byte × Bool) :=
  if e + 2 < Config.bufCap then
    .ok (nibblePair (nib (m.byte (e + 1))).1 (nib (m.byte (e + 2))).1,
      (nib (m.byte (e + 1))).2 || (nib (m.byte (e + 2))).2)
  else .error .range

/-- A hex run, the most significant digit first: `v <- v*16 + n`, `o <- o | oi`, from (0, 0) (43_field_decoder.md R71). -/
def hexRun (bytes : List Byte) : Nat × Bool :=
  bytes.foldl (fun acc c => (acc.1 * 16 + (nib c).1, acc.2 || (nib c).2)) (0, false)

/-- A decimal run: each digit times the table's power of ten for its place, the number of digits after it
(43_field_decoder.md R72). -/
def decRun : List Byte → Nat × Bool
  | [] => (0, false)
  | c :: cs => ((dig c).1 * (pow10 cs.length).1 + (decRun cs).1, (dig c).2 || (decRun cs).2)

end Sys2Proof.Machine
end

