-- ==== Sys2Proof/Machine/AdditiveChecksum.lean ====
section
/-! DEFINITION. The additive checksum operations ADDS, ADDV (42_additive_checksum.md). The summed region is the caller's
choice, given by the operands (90_conflicts.md C1; log 16). -/

namespace Sys2Proof.Machine

/-- What `ADDS A, B` answers (R63): `ckA` in the low byte, `ckB` above it. -/
def addsResult (a b : Nat) (m : Memory) : Except ErrorCode Result :=
  if sliceFits a b then
    .ok (.plain (packBytes 0 0 (addfold m a (a + b)).2 (addfold m a (a + b)).1))
  else .error .range

/-- `ADDS A, B` (R63). -/
def execAdds (a b : Nat) (s : State) : Host.Outcome State Fault Refusal := .next (s.finish (addsResult a b s.buf))

/-- What `ADDV A, B` answers (R64): the computed pair, the stored pair after the slice, and whether they agree. -/
def addvResult (a b : Nat) (m : Memory) : Except ErrorCode Result :=
  if sliceFits a (b + 2) then
    .ok ⟨packBytes (m.byte (a + b + 1)) (m.byte (a + b)) (addfold m a (a + b)).2 (addfold m a (a + b)).1, false,
      (addfold m a (a + b)).1 == m.byte (a + b) && (addfold m a (a + b)).2 == m.byte (a + b + 1)⟩
  else .error .range

/-- `ADDV A, B` (R64). -/
def execAddv (a b : Nat) (s : State) : Host.Outcome State Fault Refusal := .next (s.finish (addvResult a b s.buf))

end Sys2Proof.Machine
end

