-- ==== Sys2Proof/Machine/Buffer.lean ====
section
/-! DEFINITION. The buffer operations STB, LDB, CLRB (40_buffer_ops.md). -/

namespace Sys2Proof.Machine

/-- `STB A, B` (R51). -/
def execStb (a : Nat) (v : Byte) (s : State) : Host.Outcome State Fault Refusal :=
  .next (if inBuffer a then { s with buf := s.buf.write a v }.complete (.plain 0) else s.raise .range)

/-- What `LDB A` answers (R52). -/
def ldbResult (a : Nat) (m : Memory) : Except ErrorCode Result :=
  if inBuffer a then .ok (.plain (zext32 (m.byte a))) else .error .range

/-- `LDB A` (R52). -/
def execLdb (a : Nat) (s : State) : Host.Outcome State Fault Refusal := .next (s.finish (ldbResult a s.buf))

/-- `CLRB` (R53): all 128 bytes become 0 in one step. -/
def execClrb (s : State) : Host.Outcome State Fault Refusal :=
  .next ({ s with buf := Memory.fill fun _ => 0 }.complete (.plain 0))

end Sys2Proof.Machine
end

