-- ==== Sys2Proof/Machine/FieldDecoder.lean ====
section
/-! DEFINITION. The field decoder operations HEXN, DECN, POW10, HEXR, DECR (43_field_decoder.md). An out-of-range input is
decoded as 0 and sets OOR; it is never an error. -/

namespace Sys2Proof.Machine

/-- A decoder's answer: its value and its out-of-range flag (R68 to R72). -/
def decoderResult (d : Nat × Bool) : Except ErrorCode Result := .ok (.decoded (BitVec.ofNat 32 d.1) d.2)

/-- `HEXN A` (R68). -/
def execHexn (c : Byte) (s : State) : Host.Outcome State Fault Refusal := .next (s.finish (decoderResult (nib c)))

/-- `DECN A` (R69). -/
def execDecn (c : Byte) (s : State) : Host.Outcome State Fault Refusal := .next (s.finish (decoderResult (dig c)))

/-- `POW10 A` (R70). -/
def execPow10 (n : Nat) (s : State) : Host.Outcome State Fault Refusal := .next (s.finish (decoderResult (pow10 n)))

/-- What `HEXR A, B` answers (R71): the length limit is tested before the bound. -/
def hexrResult (a b : Nat) (m : Memory) : Except ErrorCode Result :=
  if Config.hexMax < b then .error .range
  else if sliceFits a b then decoderResult (hexRun (m.slice a (a + b)))
  else .error .range

/-- `HEXR A, B` (R71). -/
def execHexr (a b : Nat) (s : State) : Host.Outcome State Fault Refusal := .next (s.finish (hexrResult a b s.buf))

/-- What `DECR A, B` answers (R72): the length limit is tested before the bound. -/
def decrResult (a b : Nat) (m : Memory) : Except ErrorCode Result :=
  if Config.decMax < b then .error .range
  else if sliceFits a b then decoderResult (decRun (m.slice a (a + b)))
  else .error .range

/-- `DECR A, B` (R72). -/
def execDecr (a b : Nat) (s : State) : Host.Outcome State Fault Refusal := .next (s.finish (decrResult a b s.buf))

end Sys2Proof.Machine
end

