-- ==== Sys2Proof/Machine/XorChecksum.lean ====
section
/-! DEFINITION. The XOR checksum operations XORR, XORS, CKF, VFY, LOC (41_xor_checksum.md). Each result is a function of the
operands and the buffer alone (10_state.md R18). -/

namespace Sys2Proof.Machine

/-- What `XORR A, B` answers (R57). -/
def xorrResult (a b : Nat) (m : Memory) : Except ErrorCode Result :=
  if sliceFits a b then .ok (.plain (zext32 (xorfold m a (a + b)))) else .error .range

/-- `XORR A, B` (R57). -/
def execXorr (a b : Nat) (s : State) : Host.Outcome State Fault Refusal := .next (s.finish (xorrResult a b s.buf))

/-- What `XORS` answers (R58): the bytes strictly between the markers are folded. -/
def xorsResult (m : Memory) : Except ErrorCode Result :=
  match sentenceMarkers m with
  | .error e => .error e
  | .ok (s, e) => .ok (.plain (zext32 (xorfold m (s + 1) e)))

/-- `XORS` (R58). -/
def execXors (s : State) : Host.Outcome State Fault Refusal := .next (s.finish (xorsResult s.buf))

/-- What `CKF` answers (R59): the field after the first `*` of the buffer, and that marker's index. -/
def ckfResult (m : Memory) : Except ErrorCode Result :=
  match find m Config.checksumMarker 0 with
  | none => .error .markerNotFound
  | some e =>
    match checksumField m e with
    | .error err => .error err
    | .ok (r, o) => .ok (.decoded (packBytes 0 0 (indexByte e) r) o)

/-- `CKF` (R59). -/
def execCkf (s : State) : Host.Outcome State Fault Refusal := .next (s.finish (ckfResult s.buf))

/-- What `VFY` answers (R60): the computed and the received checksum, and whether they are equal. -/
def vfyResult (m : Memory) : Except ErrorCode Result :=
  match sentenceMarkers m with
  | .error err => .error err
  | .ok (s, e) =>
    match checksumField m e with
    | .error err => .error err
    | .ok (r, o) => .ok ⟨packBytes 0 0 r (xorfold m (s + 1) e), o, xorfold m (s + 1) e == r⟩

/-- `VFY` (R60). -/
def execVfy (s : State) : Host.Outcome State Fault Refusal := .next (s.finish (vfyResult s.buf))

/-- What `LOC` answers (R61): the two marker indices. -/
def locResult (m : Memory) : Except ErrorCode Result :=
  match sentenceMarkers m with
  | .error err => .error err
  | .ok (s, e) => .ok (.plain (packBytes 0 0 (indexByte e) (indexByte s)))

/-- `LOC` (R61). -/
def execLoc (s : State) : Host.Outcome State Fault Refusal := .next (s.finish (locResult s.buf))

end Sys2Proof.Machine
end

