-- ==== Sys2Proof/Machine/Dispatch.lean ====
section
/-! DEFINITION. The meaning of every operation: one arm for each constructor of Instr. -/

namespace Sys2Proof.Machine

def exec (i : Instr) (s : State) : Host.Outcome State Fault Refusal :=
  match i with
  | .stb a v => Sys2Proof.Machine.execStb a v s
  | .ldb a => Sys2Proof.Machine.execLdb a s
  | .clrb => Sys2Proof.Machine.execClrb s
  | .xorr a b => Sys2Proof.Machine.execXorr a b s
  | .xors => Sys2Proof.Machine.execXors s
  | .ckf => Sys2Proof.Machine.execCkf s
  | .vfy => Sys2Proof.Machine.execVfy s
  | .loc => Sys2Proof.Machine.execLoc s
  | .adds a b => Sys2Proof.Machine.execAdds a b s
  | .addv a b => Sys2Proof.Machine.execAddv a b s
  | .hexn c => Sys2Proof.Machine.execHexn c s
  | .decn c => Sys2Proof.Machine.execDecn c s
  | .pow10 n => Sys2Proof.Machine.execPow10 n s
  | .hexr a b => Sys2Proof.Machine.execHexr a b s
  | .decr a b => Sys2Proof.Machine.execDecr a b s

end Sys2Proof.Machine
end

