-- ==== Sys2Proof/Machine/HostPort.lean ====
section
/-! DEFINITION. The block's one port: what a register access does (10_state.md R14, R15, R20; 20_memory.md R26, R30) and what
reset does (70_reset_and_hazards.md R95). -/

namespace Sys2Proof.Machine

/-- The offset of `CMD` (10_state.md R15). -/
abbrev cmdOffset : Nat := 0x00
/-- The offset of `STATUS` (R15). -/
abbrev statusOffset : Nat := 0x04
/-- The offset of `RES` (R15). -/
abbrev resOffset : Nat := 0x08

/-- The access is part of the interface: 32 bits wide and aligned to 4 bytes (20_memory.md R26). -/
abbrev inInterface (width : Width) (offset : Nat) : Prop := width = .bits32 ∧ offset % 4 = 0

/-- The value a read returns: `CMD` and the reserved offsets read as 0 (10_state.md R14, R15; 20_memory.md R30). -/
def State.register (s : State) (offset : Nat) : Word :=
  if offset = statusOffset then s.status.word
  else if offset = resOffset then s.res
  else 0

/-- A word written to `CMD`: the decoded operation, or the error ILLEGAL and nothing else (30_encoding.md R43, R44). -/
def runCommand (w : Word) (s : State) : Host.Outcome State Fault Refusal :=
  match decode w with
  | .ok i => exec i s
  | .error _ => .next (s.raise .illegal)

/-- A 32-bit write: only `CMD` has an effect; `STATUS`, `RES` and the reserved offsets ignore it (10_state.md R15, R20). -/
def writeRegister (offset : Nat) (w : Word) (s : State) : Host.Outcome State Fault Refusal :=
  if offset = cmdOffset then runCommand w s else .next s

/-- The platform's reset: `STATUS = 0`, `RES = 0`, `BUF` holds fresh unspecified bytes (70_reset_and_hazards.md R95; log 6). -/
def State.platformReset (s : State) : State :=
  { s with buf := Memory.fill (Config.bufInit (s.resets + 1)), res := 0, status := Status.ok false false,
           resets := s.resets + 1 }

/-- One host access, complete before the next is served (10_state.md R8). -/
def serve (a : Access) (s : State) : Host.Outcome State Fault Refusal :=
  match a with
  | .write width offset w =>
    if inInterface width offset then writeRegister offset w s else .refused (.accessOutsideInterface width offset)
  | .read width offset =>
    if inInterface width offset then .next { s with readData := some (s.register offset) }
    else .refused (.accessOutsideInterface width offset)
  | .reset => .next s.platformReset

/-- One step of the whole: the next access of the host's list is taken from it and served; with none to come the block holds
its state (60_exceptions.md R90, 70_reset_and_hazards.md R105; log 4). -/
def serveNext (s : State) : Host.Outcome State Fault Refusal :=
  match s.host with
  | [] => .next s
  | a :: rest => serve a { s with host := rest }

/-- The write of one command word to `CMD` (30_encoding.md R40). -/
def Access.command (w : Word) : Access := .write .bits32 cmdOffset w

end Sys2Proof.Machine
end

