-- ==== Sys2Proof/Machine/Step.lean ====
section
/-! DEFINITION. One step: the host's next access is served. There is no program counter and no fetch: the next instruction
is whatever word the host writes to `CMD` next (10_state.md R13). -/

namespace Sys2Proof.Machine

/-- One step of the machine. -/
def step (s : State) : Host.Outcome State Fault Refusal := Sys2Proof.Machine.serveNext s

/-- The state whose next access is the write of this word to `CMD`, ahead of what the host does afterwards (log 3). -/
def State.withFetchWord (s : State) (nbits w : Nat) : State :=
  { s with host := Access.command (tableWord nbits w) :: s.host }

end Sys2Proof.Machine
end

