-- ==== Sys2Proof/Machine/Assembler.lean ====
section
/-! DEFINITION. Programs as the host issues them (30_encoding.md R46, R47; 70_reset_and_hazards.md R105): a listing is a list of
lines, a line is a command or the pseudo-instruction PUTS, and a program is the list of the writes of its command words.
The source text of a line is read character by character (R46, R47; what they leave open is log 17). -/

namespace Sys2Proof.Machine

/-- A line of a listing (R46, R47). -/
inductive AsmLine where
  /-- One command. -/
  | command (i : Instr)
  /-- `PUTS i, "text"`, the text as its bytes. -/
  | puts (start : Nat) (text : List Byte)
  deriving DecidableEq, Repr

/-- `PUTS i, "text"`: one `STB` for each character, in order of increasing index (R47). -/
def puts : Nat → List Byte → List Instr
  | _, [] => []
  | i, c :: cs => .stb i c :: puts (i + 1) cs

/-- The commands a line stands for. -/
def AsmLine.expand : AsmLine → List Instr
  | .command i => [i]
  | .puts i text => Sys2Proof.Machine.puts i text

/-- The commands of a listing, in order. -/
def assemble (lines : List AsmLine) : List Instr := lines.flatMap AsmLine.expand

/-- The host accesses that issue these commands: one write of `CMD` each, in order (R14, R46). It does not look whether a command is
well formed. DESIGN CHOICE (log 17): a `STB` of `PUTS` at index 256 or above has no word in the spec; here `encode` keeps the
low 8 bits of the index (`STB 256` is issued as `STB 0`), where `assembleLine` answers none. -/
def program (cmds : List Instr) : List Access := cmds.map fun i => Access.command (encode i)

/-- The operands in the order `A`, `B` (R46). -/
def operandsOf : Instr → List Nat
  | .stb a v => [a, v.toNat]
  | .ldb a => [a]
  | .clrb => []
  | .xorr a b => [a, b]
  | .xors => []
  | .ckf => []
  | .vfy => []
  | .loc => []
  | .adds a b => [a, b]
  | .addv a b => [a, b]
  | .hexn c => [c.toNat]
  | .decn c => [c.toNat]
  | .pow10 n => [n]
  | .hexr a b => [a, b]
  | .decr a b => [a, b]

/-- The command as R46 writes it, with decimal operands: `MNEMONIC`, `MNEMONIC A` or `MNEMONIC A, B`. -/
def listing (i : Instr) : String :=
  match operandsOf i with
  | [] => i.mnemonic
  | a :: rest => i.mnemonic ++ " " ++ String.intercalate ", " ((a :: rest).map toString)

/-! ### Reading a line of source text -/

/-- What a line of source text consists of (R46, R47). -/
inductive Token where
  | name (cs : List Char)
  | number (n : Nat)
  | text (bytes : List Byte)
  | comma
  deriving DecidableEq, Repr

/-- Where the reader stands in a line. Characters and bytes already read are held in reverse. -/
inductive Reader where
  | between
  | word (rev : List Char)
  | openQuote
  | closeQuote (b : Byte)
  | inText (rev : List Byte)
  | escape (rev : List Byte)
  | hexHigh (rev : List Byte)
  | hexLow (rev : List Byte) (high : Nat)
  | dash
  | comment
  deriving DecidableEq, Repr

/-- The ASCII code of a character (R46, R47). -/
def asciiCode (c : Char) : Option Byte := if c.toNat < 128 then some (BitVec.ofNat 8 c.toNat) else none

/-- A digit of a number in source text; hex digits in either case (log 17). -/
def sourceDigit (c : Char) : Option Nat :=
  if 0x30 ≤ c.toNat ∧ c.toNat ≤ 0x39 then some (c.toNat - 0x30)
  else if 0x41 ≤ c.toNat ∧ c.toNat ≤ 0x46 then some (c.toNat - 0x41 + 10)
  else if 0x61 ≤ c.toNat ∧ c.toNat ≤ 0x66 then some (c.toNat - 0x61 + 10)
  else none

/-- The number that the digits write in the base. -/
def sourceNumber (base : Nat) (cs : List Char) : Option Nat :=
  cs.foldl
    (fun acc c =>
      match acc, sourceDigit c with
      | some n, some d => if d < base then some (n * base + d) else none
      | _, _ => none)
    (some 0)

/-- A word of the source text: `0x` and hex digits, decimal digits, or a name (R46). -/
def wordToken (cs : List Char) : Option Token :=
  match cs with
  | [] => none
  | '0' :: 'x' :: h :: hs => (sourceNumber 16 (h :: hs)).map .number
  | c :: _ => if c.toNat ≤ 0x39 then (sourceNumber 10 cs).map .number else some (.name cs)

/-- One character outside words, quotes and comments: a space, a comma, a quote, the first `-` of a comment, or the first
character of a word. -/
def readBetween (ts : List Token) (c : Char) : Option (Reader × List Token) :=
  if c.toNat = 0x20 ∨ c.toNat = 0x09 then some (.between, ts)
  else if c.toNat = 0x2C then some (.between, .comma :: ts)
  else if c.toNat = 0x27 then some (.openQuote, ts)
  else if c.toNat = 0x22 then some (.inText [], ts)
  else if c.toNat = 0x2D then some (.dash, ts)
  else if c.isAlphanum then some (.word [c], ts)
  else none

/-- The character after a backslash in a text (R47: `\r`, `\n`, `\xHH`, every other character is its code). DESIGN CHOICE
(log 17): a backslash before any other character stands for itself, and so does that character. -/
def readEscape (rev : List Byte) (c : Char) : Option Reader :=
  if c.toNat = 0x72 then some (.inText (0x0D :: rev))
  else if c.toNat = 0x6E then some (.inText (0x0A :: rev))
  else if c.toNat = 0x78 then some (.hexHigh rev)
  else (asciiCode c).map fun b => .inText (b :: 0x5C :: rev)

/-- One character of the line. DESIGN CHOICE (log 17): R47 defines only `\xHH`, and a `\x` that two hex digits do not follow makes
the whole line no line of the syntax (none). -/
def readChar (at_ : Reader × List Token) (c : Char) : Option (Reader × List Token) :=
  match at_ with
  | (.between, ts) => readBetween ts c
  | (.word rev, ts) =>
    if c.isAlphanum then some (.word (c :: rev), ts)
    else match wordToken rev.reverse with
      | some t => readBetween (t :: ts) c
      | none => none
  | (.openQuote, ts) => (asciiCode c).map fun b => (.closeQuote b, ts)
  | (.closeQuote b, ts) => if c.toNat = 0x27 then some (.between, .number b.toNat :: ts) else none
  | (.inText rev, ts) =>
    if c.toNat = 0x22 then some (.between, .text rev.reverse :: ts)
    else if c.toNat = 0x5C then some (.escape rev, ts)
    else (asciiCode c).map fun b => (.inText (b :: rev), ts)
  | (.escape rev, ts) => (readEscape rev c).map fun r => (r, ts)
  | (.hexHigh rev, ts) => (sourceDigit c).map fun h => (.hexLow rev h, ts)
  | (.hexLow rev h, ts) => (sourceDigit c).map fun l => (.inText (BitVec.ofNat 8 (h * 16 + l) :: rev), ts)
  | (.dash, ts) => if c.toNat = 0x2D then some (.comment, ts) else none
  | (.comment, ts) => some (.comment, ts)

/-- The line read to its end. -/
def readLine (line : List Char) : Option (Reader × List Token) :=
  line.foldl (fun acc c => acc.bind fun st => readChar st c) (some (Reader.between, []))

/-- The tokens of a line; none where the text is not of the syntax. -/
def tokens (line : List Char) : Option (List Token) :=
  match readLine line with
  | some (.between, ts) => some ts.reverse
  | some (.comment, ts) => some ts.reverse
  | some (.word rev, ts) => (wordToken rev.reverse).map fun t => (t :: ts).reverse
  | _ => none

/-- An operation without operands, by its mnemonic (R46). -/
def nameWithoutOperand (m : List Char) : Option Instr :=
  if m = ['C', 'L', 'R', 'B'] then some .clrb
  else if m = ['X', 'O', 'R', 'S'] then some .xors
  else if m = ['C', 'K', 'F'] then some .ckf
  else if m = ['V', 'F', 'Y'] then some .vfy
  else if m = ['L', 'O', 'C'] then some .loc
  else none

/-- An operation with the operand `A` (R46). -/
def nameWithOne (m : List Char) (a : Nat) : Option Instr :=
  if m = ['L', 'D', 'B'] then some (.ldb a)
  else if m = ['P', 'O', 'W', '1', '0'] then some (.pow10 a)
  else if ¬ fitsField a then none
  else if m = ['H', 'E', 'X', 'N'] then some (.hexn (BitVec.ofNat 8 a))
  else if m = ['D', 'E', 'C', 'N'] then some (.decn (BitVec.ofNat 8 a))
  else none

/-- An operation with the operands `A`, `B` (R46). -/
def nameWithTwo (m : List Char) (a b : Nat) : Option Instr :=
  if m = ['X', 'O', 'R', 'R'] then some (.xorr a b)
  else if m = ['A', 'D', 'D', 'S'] then some (.adds a b)
  else if m = ['A', 'D', 'D', 'V'] then some (.addv a b)
  else if m = ['H', 'E', 'X', 'R'] then some (.hexr a b)
  else if m = ['D', 'E', 'C', 'R'] then some (.decr a b)
  else if ¬ fitsField b then none
  else if m = ['S', 'T', 'B'] then some (.stb a (BitVec.ofNat 8 b))
  else none

/-- The line that the tokens write, none of them for an empty line (R46, R47). -/
def lineOf : List Token → Option (List AsmLine)
  | [] => some []
  | [.name m] => (nameWithoutOperand m).map fun i => [.command i]
  | [.name m, .number a] => (nameWithOne m a).map fun i => [.command i]
  | [.name m, .number a, .comma, .number b] => (nameWithTwo m a b).map fun i => [.command i]
  | [.name m, .number a, .comma, .text bytes] => if m = ['P', 'U', 'T', 'S'] then some [.puts a bytes] else none
  | _ => none

/-- The commands a line of source text stands for: none where it is not of the syntax or a command has no word (log 17). -/
def assembleLine (line : List Char) : Option (List Instr) :=
  match tokens line with
  | none => none
  | some ts =>
    match lineOf ts with
    | none => none
    | some ls => if (assemble ls).all Instr.wellFormed then some (assemble ls) else none

end Sys2Proof.Machine
end

