-- ==== Sys2Proof/Machine/Footprint.lean ====
section
/-! DEFINITION. Which bytes of the buffer each operation may read and write: the table of 20_memory.md R22. -/

namespace Sys2Proof.Machine

/-- `BUF[0 .. e+k]` where `e` is the `*` found, all of `BUF` where no `*` is found (R22). -/
def scannedTo (marker : Option Nat) (k : Nat) : List Nat :=
  match marker with
  | none => List.range Config.bufCap
  | some e => List.range (e + k + 1)

/-- The `*` of the sentence, where both markers are found (41_xor_checksum.md R56). -/
def sentenceEnd (m : Memory) : Option Nat :=
  match sentenceMarkers m with
  | .error _ => none
  | .ok (_, e) => some e

/-- The greatest set of indices the operation may read (R22), before the cut at the buffer's end. -/
def readIndices (i : Instr) (m : Memory) : List Nat :=
  match i with
  | .stb _ _ => []
  | .ldb a => [a]
  | .clrb => []
  | .xorr a b => List.range' a b
  | .xors => scannedTo (sentenceEnd m) 0
  | .ckf => scannedTo (find m Config.checksumMarker 0) 2
  | .vfy => scannedTo (sentenceEnd m) 2
  | .loc => scannedTo (sentenceEnd m) 0
  | .adds a b => List.range' a b
  | .addv a b => List.range' a (b + 2)
  | .hexn _ => []
  | .decn _ => []
  | .pow10 _ => []
  | .hexr a b => List.range' a b
  | .decr a b => List.range' a b

/-- The indices of the buffer the operation may read; no index at or above `BUF_CAP` is ever accessed (R22, R27). -/
def readSet (i : Instr) (m : Memory) : List Nat := (readIndices i m).filter fun j => j < Config.bufCap

/-- The indices the operation may write (R22). -/
def writeSet : Instr → List Nat
  | .stb a _ => [a]
  | .ldb _ => []
  | .clrb => List.range Config.bufCap
  | .xorr _ _ => []
  | .xors => []
  | .ckf => []
  | .vfy => []
  | .loc => []
  | .adds _ _ => []
  | .addv _ _ => []
  | .hexn _ => []
  | .decn _ => []
  | .pow10 _ => []
  | .hexr _ _ => []
  | .decr _ _ => []

end Sys2Proof.Machine
end

