-- ==== Sys2Proof/Safety.lean ====
section
/-! DEFINITION. The terms claims are stated in: the invariant of a state, what a marker index, a checksum and a digit are, each
written from the rules and not from the machine's own functions, and what a careful host looks at. -/

namespace Sys2Proof.Safety

open Sys2Proof.Machine

/-- What every state of the hardware is like: the buffer has its 128 bytes; `ERR` is one of the codes 0 to 3; an error
leaves `RES`, `OOR` and `MATCH` zero (10_state.md R10, R16; 60_exceptions.md R80, R82). -/
structure Inv (s : State) : Prop where
  buffer   : s.buf.wf = true
  errCode  : s.status.err.toNat ≤ 3
  errRes   : s.status.err ≠ 0 → s.res = 0
  errFlags : s.status.err ≠ 0 → s.status.oor = false ∧ s.status.matched = false

/-- The word `op*2^24 + A*2^16 + B*2^8` with `C = 0` decodes to the operation (30_encoding.md R40, R42, R43). -/
def HasWord (i : Instr) (op a b : Nat) : Prop :=
  a < 256 → b < 256 → decode (BitVec.ofNat 32 (op * 2 ^ 24 + a * 2 ^ 16 + b * 2 ^ 8)) = .ok i

/-- `i` is the least index with `start <= i < 128` whose byte is `c` (41_xor_checksum.md R56). -/
def IsFirst (m : Memory) (c : Byte) (start i : Nat) : Prop :=
  start ≤ i ∧ i < 128 ∧ m.byte i = c ∧ ∀ j, start ≤ j → j < i → m.byte j ≠ c

/-- No index from `start` on holds `c`. -/
def Missing (m : Memory) (c : Byte) (start : Nat) : Prop := ∀ j, start ≤ j → j < 128 → m.byte j ≠ c

/-- The sentence markers: the first `$`, and the first `*` after it (R56). -/
def Markers (m : Memory) (s e : Nat) : Prop := IsFirst m 0x24#8 0 s ∧ IsFirst m 0x2A#8 (s + 1) e

/-- One of the sentence markers is missing: no `$`, or no `*` after the first `$` (60_exceptions.md R83). -/
def MarkersMissing (m : Memory) : Prop :=
  Missing m 0x24#8 0 ∨ ∃ s, IsFirst m 0x24#8 0 s ∧ Missing m 0x2A#8 (s + 1)

/-- `x` is the XOR of the `n` bytes from index `lo`: the running values start at 0 and each takes the next byte
(41_xor_checksum.md R55). -/
def IsXor (m : Memory) (lo n : Nat) (x : Byte) : Prop :=
  ∃ run : Nat → Byte, run 0 = 0 ∧ (∀ j, j < n → run (j + 1) = run j ^^^ m.byte (lo + j)) ∧ x = run n

/-- `(ckA, ckB)` is the additive pair of the `n` bytes from index `lo`: both start at 0, `ckA` takes the byte, then `ckB` the
new `ckA`, modulo 256 (42_additive_checksum.md R62). -/
def IsAdditivePair (m : Memory) (lo n : Nat) (ckA ckB : Byte) : Prop :=
  ∃ a b : Nat → Nat, a 0 = 0 ∧ b 0 = 0 ∧
    (∀ j, j < n → a (j + 1) = (a j + (m.byte (lo + j)).toNat) % 256 ∧ b (j + 1) = (b j + a (j + 1)) % 256) ∧
    ckA.toNat = a n ∧ ckB.toNat = b n

/-- The decimal digits in order of value, `0` to `9` (00_scope.md section 7, 43_field_decoder.md R66). -/
def decimalDigits : List Byte := [0x30, 0x31, 0x32, 0x33, 0x34, 0x35, 0x36, 0x37, 0x38, 0x39]

/-- The hex digits in order of value, `0` to `9`, `A` to `F` (43_field_decoder.md R65). -/
def hexDigits : List Byte := decimalDigits ++ [0x41, 0x42, 0x43, 0x44, 0x45, 0x46]

/-- What a character counts as: its place among the digits, 0 where it is none of them (R65, R66). -/
def digitValue (digits : List Byte) (c : Byte) : Nat := if c ∈ digits then digits.idxOf c else 0

/-- The two characters at `e+1`, `e+2` as a checksum field: `h*16 + l` (41_xor_checksum.md R59). -/
def fieldValue (m : Memory) (e : Nat) : Nat :=
  digitValue hexDigits (m.byte (e + 1)) * 16 + digitValue hexDigits (m.byte (e + 2))

/-- Both characters of the checksum field are hex digits. -/
def FieldInRange (m : Memory) (e : Nat) : Prop := m.byte (e + 1) ∈ hexDigits ∧ m.byte (e + 2) ∈ hexDigits

/-- Every character of the run is a digit of the kind. -/
def RunInRange (digits : List Byte) (m : Memory) (lo n : Nat) : Prop := ∀ j, j < n → m.byte (lo + j) ∈ digits

/-- The value of a run, most significant digit first: `sum over j of digit_j * base^(n-1-j)` (R71, R72). -/
def runValue (digits : List Byte) (base : Nat) (m : Memory) (lo n : Nat) : Nat :=
  ∑ j ∈ Finset.range n, digitValue digits (m.byte (lo + j)) * base ^ (n - 1 - j)

/-- The state in which an operation ended without error: all of `RES` and `STATUS` written, nothing else changed. -/
def ended (s : State) (res : Nat) (oor matched : Bool) : State :=
  { s with res := BitVec.ofNat 32 res, status := ⟨0, oor, matched⟩ }

/-- The state in which an operation ended with the error of this number: `RES` 0, both flags 0, nothing else changed
(60_exceptions.md R80). -/
def errored (s : State) (code : BitVec 4) : State := { s with res := 0, status := ⟨code, false, false⟩ }

/-- What is not the block's: the host's list, the value it last read, the count of resets. -/
def SameHost (s t : State) : Prop := t.host = s.host ∧ t.readData = s.readData ∧ t.resets = s.resets

/-- The condition under which the operation ends with `RANGE` (60_exceptions.md R84). -/
def RangeCondition (i : Instr) (m : Memory) : Prop :=
  match i with
  | .stb a _ => 128 ≤ a
  | .ldb a => 128 ≤ a
  | .clrb => False
  | .xorr a b => 128 < a + b
  | .xors => False
  | .ckf => ∃ e, IsFirst m 0x2A#8 0 e ∧ 128 ≤ e + 2
  | .vfy => ∃ s e, Markers m s e ∧ 128 ≤ e + 2
  | .loc => False
  | .adds a b => 128 < a + b
  | .addv a b => 128 < a + b + 2
  | .hexn _ => False
  | .decn _ => False
  | .pow10 _ => False
  | .hexr a b => 8 < b ∨ 128 < a + b
  | .decr a b => 9 < b ∨ 128 < a + b

/-- The condition under which the operation ends with `MARKER_NOT_FOUND` (60_exceptions.md R83). -/
def MarkerCondition (i : Instr) (m : Memory) : Prop :=
  match i with
  | .ckf => Missing m 0x2A#8 0
  | .xors => MarkersMissing m
  | .vfy => MarkersMissing m
  | .loc => MarkersMissing m
  | .stb _ _ => False
  | .ldb _ => False
  | .clrb => False
  | .xorr _ _ => False
  | .adds _ _ => False
  | .addv _ _ => False
  | .hexn _ => False
  | .decn _ => False
  | .pow10 _ => False
  | .hexr _ _ => False
  | .decr _ _ => False

/-- The 15 assigned opcodes (30_encoding.md R42). -/
def opcodes : List Byte :=
  [0x01, 0x02, 0x03] ++ [0x10, 0x11, 0x12, 0x13, 0x14] ++ [0x20, 0x21] ++ [0x30, 0x31, 0x32, 0x33, 0x34]

/-- The opcodes of the operations that do not use `A` (R41). -/
def opcodesWithoutA : List Byte := [0x03, 0x11, 0x12, 0x13, 0x14]

/-- The opcodes of the operations that do not use `B` (R41). -/
def opcodesWithoutB : List Byte := opcodesWithoutA ++ [0x02, 0x30, 0x31, 0x32]

/-- The decoding procedure's checks (R43): the word is illegal when one of them fails. -/
def IllegalByProcedure (w : Word) : Prop :=
  fieldC w ≠ 0 ∨ fieldOp w ∉ opcodes ∨ (fieldOp w ∈ opcodesWithoutA ∧ fieldA w ≠ 0) ∨
    (fieldOp w ∈ opcodesWithoutB ∧ fieldB w ≠ 0)

/-- The `ERR` numbers the operation can end with, `ILLEGAL` apart, which only decoding gives (10_state.md R17). -/
def errCodes : Instr → List (BitVec 4)
  | .stb _ _ => [0, 2]
  | .ldb _ => [0, 2]
  | .clrb => [0]
  | .xorr _ _ => [0, 2]
  | .xors => [0, 1]
  | .loc => [0, 1]
  | .ckf => [0, 1, 2]
  | .vfy => [0, 1, 2]
  | .adds _ _ => [0, 2]
  | .addv _ _ => [0, 2]
  | .hexn _ => [0]
  | .decn _ => [0]
  | .pow10 _ => [0]
  | .hexr _ _ => [0, 2]
  | .decr _ _ => [0, 2]

/-- The operations whose `OOR` can be 1 (R17). -/
def canSetOor : Instr → Bool
  | .ckf => true
  | .vfy => true
  | .hexn _ => true
  | .decn _ => true
  | .pow10 _ => true
  | .hexr _ _ => true
  | .decr _ _ => true
  | .stb _ _ => false
  | .ldb _ => false
  | .clrb => false
  | .xorr _ _ => false
  | .xors => false
  | .loc => false
  | .adds _ _ => false
  | .addv _ _ => false

/-- The operations whose `MATCH` can be 1 (R17). -/
def canSetMatch (i : Instr) : Bool :=
  match i with
  | .vfy => true
  | .addv _ _ => true
  | .stb _ _ => false
  | .ldb _ => false
  | .clrb => false
  | .xorr _ _ => false
  | .xors => false
  | .ckf => false
  | .loc => false
  | .adds _ _ => false
  | .hexn _ => false
  | .decn _ => false
  | .pow10 _ => false
  | .hexr _ _ => false
  | .decr _ _ => false

/-- The host's list holds only accesses of the interface: writes and reads 32 bits wide and aligned, and resets
(20_memory.md R26, 70_reset_and_hazards.md R105). -/
def HostKeepsInterface (s : State) : Prop :=
  ∀ a ∈ s.host, match a with
    | .write width offset _ => width = .bits32 ∧ offset % 4 = 0
    | .read width offset => width = .bits32 ∧ offset % 4 = 0
    | .reset => True

/-- What a host that wants "two ASCII hex digits" requires after VFY: no error, MATCH = 1 and OOR = 0
(70_reset_and_hazards.md R100, R101). -/
def AcceptedStrictly (s : State) : Prop := s.status.err = 0 ∧ s.status.matched = true ∧ s.status.oor = false

/-- The byte of `RES` at bits 15:8, where `CKF` and `LOC` give the index of the `*` they used (10_state.md R11, R103). -/
def resByte1 (s : State) : Byte := s.res.extractLsb' 8 8

end Sys2Proof.Safety
end

