-- ==== Sys2Proof/Certificates/Slice0/Obligations.lean ====
section
/-! DEFINITION. The statements for the provers, in the terms of Safety.lean. Every statement about an operation says the whole
next state: `ended` and `errored` change `RES` and `STATUS` and nothing else, so the frame is part of the equation. -/

open Sys2Proof Sys2Proof.Machine Sys2Proof.Safety

/-! ### The command word -/

/-- The 15 worked encodings of 30_encoding.md section 6 decode to the commands they stand for. -/
def Obligations.WorkedEncodingsDecode : Prop :=
  decode 0x01002400 = .ok (.stb 0 0x24) ∧ decode 0x027F0000 = .ok (.ldb 127) ∧ decode 0x03000000 = .ok .clrb ∧
  decode 0x10013D00 = .ok (.xorr 1 61) ∧ decode 0x11000000 = .ok .xors ∧ decode 0x12000000 = .ok .ckf ∧
  decode 0x13000000 = .ok .vfy ∧ decode 0x14000000 = .ok .loc ∧ decode 0x20020C00 = .ok (.adds 2 12) ∧
  decode 0x21020C00 = .ok (.addv 2 12) ∧ decode 0x30410000 = .ok (.hexn 0x41) ∧
  decode 0x31370000 = .ok (.decn 0x37) ∧ decode 0x32090000 = .ok (.pow10 9) ∧
  decode 0x33000800 = .ok (.hexr 0 8) ∧ decode 0x340E0200 = .ok (.decr 14 2)

/-- R40: the word `op*2^24 + A*2^16 + B*2^8 + C` has these four fields. -/
def Obligations.CommandFieldsAreTheWordsBytes : Prop :=
  ∀ op a b c : Nat, op < 256 → a < 256 → b < 256 → c < 256 →
    (fieldOp (BitVec.ofNat 32 (op * 2 ^ 24 + a * 2 ^ 16 + b * 2 ^ 8 + c))).toNat = op ∧
    (fieldA (BitVec.ofNat 32 (op * 2 ^ 24 + a * 2 ^ 16 + b * 2 ^ 8 + c))).toNat = a ∧
    (fieldB (BitVec.ofNat 32 (op * 2 ^ 24 + a * 2 ^ 16 + b * 2 ^ 8 + c))).toNat = b ∧
    (fieldC (BitVec.ofNat 32 (op * 2 ^ 24 + a * 2 ^ 16 + b * 2 ^ 8 + c))).toNat = c

/-- Decoding the word of a well-formed operation gives the operation back, with every operand. -/
def Obligations.EncodedInstructionDecodesBack : Prop :=
  ∀ i : Instr, i.wellFormed = true → decode (encode i) = .ok i

/-- A legal word is the word of the operation it selects, which is well formed: no two words mean the same. -/
def Obligations.DecodedWordEncodesBack : Prop :=
  ∀ (w : Word) (i : Instr), decode w = .ok i → encode i = w ∧ i.wellFormed = true

/-- R43: a word is illegal exactly when one of the procedure's checks fails; equivalently it is legal exactly when it matches a
row of R42 under the row's mask, the row names the operation selected, and at most one row matches. The operation's operands
are the fields `A`, `B` of the word. -/
def Obligations.WordLegalExactlyByProcedureAndTable : Prop :=
  ∀ w : Word,
    ((∃ e, decode w = .error e) ↔ IllegalByProcedure w) ∧
    ((∃ i, decode w = .ok i) ↔ ∃ r ∈ opcodeTable, r.matches w) ∧
    (∀ i, decode w = .ok i → ∀ r ∈ opcodeTable, r.matches w → r.mnemonic = i.mnemonic) ∧
    (∀ i, decode w = .ok i →
      operandsOf i = [(fieldA w).toNat, (fieldB w).toNat].take (operandsOf i).length) ∧
    (∀ r ∈ opcodeTable, ∀ r' ∈ opcodeTable, r.matches w → r'.matches w → r = r')

/-! ### The host's port and the step -/

/-- R85: a word written to `CMD` that is not a legal command (it fails a check of the decode) ends with `RES = 0`,
`ERR = 3`, both flags 0, and nothing else changed; no part of it is acted upon. -/
def Obligations.IllegalWordOnlyReportsIllegal : Prop :=
  ∀ (s : State) (w : Word) (rest : List Access),
    s.host = .write .bits32 0x00 w :: rest → IllegalByProcedure w →
    step s = .next (errored { s with host := rest } 3)

/-- A word written to `CMD` that decodes to an operation runs that operation, the access being taken from the host's list. -/
def Obligations.StepRunsDecodedInstruction : Prop :=
  ∀ (s : State) (w : Word) (i : Instr) (rest : List Access),
    s.host = .write .bits32 0x00 w :: rest → decode w = .ok i → step s = exec i { s with host := rest }

/-- `withFetchWord` makes this word the next one the host writes: the step runs it at the state as it was. -/
def Obligations.FetchWordIsRunNext : Prop :=
  ∀ (s : State) (w : Nat) (i : Instr), w < 2 ^ 32 → decodeTableWord 32 w = some i →
    step (s.withFetchWord 32 w) = exec i s

/-- With no host access to serve the block holds its state (log 4). -/
def Obligations.IdleStepChangesNothing : Prop :=
  ∀ s : State, s.host = [] → step s = .next s

/-- R15: a 32-bit aligned read returns `STATUS` at 0x04, `RES` at 0x08 and 0 at every other offset, and changes nothing of
the block; a write at any offset but 0x00 is ignored; `STATUS` and `RES` are 0 at reset. -/
def Obligations.RegisterMapOfThePort : Prop :=
  (∀ (s : State) (off : Nat) (rest : List Access), off % 4 = 0 →
    (s.host = .read .bits32 off :: rest →
      step s = .next { s with
        host := rest,
        readData := some (if off = 0x04 then s.status.word else if off = 0x08 then s.res else 0) }) ∧
    (∀ v : Word, s.host = .write .bits32 off v :: rest → off ≠ 0x00 → step s = .next { s with host := rest })) ∧
  State.reset.status.word = 0 ∧ State.reset.res = 0

/-- The word a read of `STATUS` returns has `ERR` in bits 3:0, `OOR` in bit 4, `MATCH` in bit 5 and 0 in bits 31:6. -/
def Obligations.StatusWordLayout : Prop :=
  ∀ (s : State) (rest : List Access), s.host = .read .bits32 0x04 :: rest →
    ∃ v : Word, step s = .next { s with host := rest, readData := some v } ∧
      (∀ k, k < 4 → v.getLsbD k = s.status.err.getLsbD k) ∧ v.getLsbD 4 = s.status.oor ∧
      v.getLsbD 5 = s.status.matched ∧ ∀ k, 6 ≤ k → v.getLsbD k = false

/-- The step refuses exactly the accesses outside the interface: not 32 bits wide, or not aligned to 4 bytes. -/
def Obligations.RefusedExactlyOutsideInterface : Prop :=
  ∀ s : State, (∃ r, step s = .refused r) ↔
    ∃ width off rest, ¬(width = Width.bits32 ∧ off % 4 = 0) ∧
      (s.host = .read width off :: rest ∨ ∃ v, s.host = .write width off v :: rest)

/-- The platform's reset leaves `STATUS` and `RES` zero and a buffer of 128 bytes, and the host goes on with its list. The
buffer's bytes are the free value of log 1 and log 6; nothing is said of them. -/
def Obligations.PlatformResetClearsRegisters : Prop :=
  ∀ (s : State) (rest : List Access), s.host = .reset :: rest →
    ∃ t, step s = .next t ∧ t.status.word = 0 ∧ t.res = 0 ∧ t.buf.wf = true ∧ t.host = rest ∧
      t.readData = s.readData

/-- After reset `STATUS` and `RES` read 0 and the buffer has its 128 bytes. -/
def Obligations.ResetStateRegistersZero : Prop :=
  State.reset.status = ⟨0, false, false⟩ ∧ State.reset.res = 0 ∧
    ∀ i, (State.reset.buf.read i).isSome = true ↔ i < 128

/-- The reset state meets the invariant. -/
def Obligations.ResetMeetsInvariant : Prop := Inv State.reset

/-- Every step keeps the invariant: the buffer keeps its 128 cells, no `ERR` code above 3 is produced, and an error leaves
`RES`, `OOR` and `MATCH` zero. -/
def Obligations.StepKeepsInvariant : Prop :=
  ∀ s t : State, Inv s → step s = .next t → Inv t

/-- From every state whose pending accesses are of the interface, any number of steps runs without a stop: one access is served a
step while accesses are pending. For `n` beyond the length of the host's list the rest are idle steps, which exist by the
model's choice alone (log 4, DESIGN CHOICE: the spec gives no step there). -/
def Obligations.RunWithinInterfaceNeverStops : Prop :=
  ∀ (n : Nat) (s : State), HostKeepsInterface s →
    ∃ t : State, Host.Core.run core n s = .next t ∧ t.host = s.host.drop n

/-! ### Rules over all operations -/

/-- R18: the outcome of a word written to `CMD`, legal or not, is a function of the word and of the buffer: two states with
equal buffers, whatever their `RES`, `STATUS` and hosts, end with equal buffers, results and status. -/
def Obligations.OutcomeIsFunctionOfWordAndBuffer : Prop :=
  ∀ (s s' : State) (w : Word) (rest rest' : List Access),
    s.host = .write .bits32 0x00 w :: rest → s'.host = .write .bits32 0x00 w :: rest' → s.buf = s'.buf →
    ∃ t t', step s = .next t ∧ step s' = .next t' ∧ t.buf = t'.buf ∧ t.res = t'.res ∧ t.status = t'.status

/-- An operation's result and status depend on no byte outside its read set. -/
def Obligations.OutcomeDependsOnReadSetOnly : Prop :=
  ∀ (i : Instr) (s s' : State), (∀ j ∈ readSet i s.buf, s.buf.byte j = s'.buf.byte j) →
    ∃ t t', exec i s = .next t ∧ exec i s' = .next t' ∧ t.res = t'.res ∧ t.status = t'.status

/-- Every operation completes in every state; it changes no byte outside its write set, none at all when it ends with an
error, and nothing of the host. -/
def Obligations.EveryInstructionCompletesWithinItsWriteSet : Prop :=
  ∀ (i : Instr) (s : State), ∃ t, exec i s = .next t ∧ SameHost s t ∧
    (s.buf.wf = true → ∀ j, j ∉ writeSet i → t.buf.byte j = s.buf.byte j) ∧ (t.status.err ≠ 0 → t.buf = s.buf)

/-- An operation issued twice leaves the state that issuing it once leaves (20_memory.md R29; 40_buffer_ops.md R51, R53). -/
def Obligations.RepeatedInstructionChangesNothing : Prop :=
  ∀ (i : Instr) (s : State), ∃ t, exec i s = .next t ∧ exec i t = .next t

/-- R80: a word written to `CMD` that ends with an error (`ERR` is not 0) has written `RES = 0`, both flags 0, and nothing
else. -/
def Obligations.ErrorWritesOnlyResAndStatus : Prop :=
  ∀ (s t : State) (w : Word) (rest : List Access),
    s.host = .write .bits32 0x00 w :: rest → step s = .next t → t.status.err ≠ 0 →
    t = errored { s with host := rest } t.status.err

/-- R83, R84: an operation ends with `MARKER_NOT_FOUND`, or with `RANGE`, exactly under its tabulated condition. -/
def Obligations.ErrorCodesExactlyAsTabulated : Prop :=
  ∀ (i : Instr) (s : State), ∃ t, exec i s = .next t ∧ (t.status.err = 1 ↔ MarkerCondition i s.buf) ∧
    (t.status.err = 2 ↔ RangeCondition i s.buf) ∧ t.status.err ∈ errCodes i

/-- An operation sets `OOR` and `MATCH` only where the table of flags allows it, only without an error, and reads neither
`STATUS` nor `RES`. -/
def Obligations.FlagsOnlyAsTabulated : Prop :=
  ∀ (i : Instr) (s : State), ∃ t, exec i s = .next t ∧
    (t.status.oor = true → canSetOor i = true ∧ t.status.err = 0) ∧
    (t.status.matched = true → canSetMatch i = true ∧ t.status.err = 0) ∧
    ∀ (r : Word) (st : Status), exec i { s with res := r, status := st } = .next t

/-! ### Buffer operations -/

/-- R51: `STB` stores one byte at an index below 128 and leaves every other byte; storing what is there changes nothing; at
128 and above it ends with RANGE. -/
def Obligations.StbStoresOneByte : Prop :=
  ∀ (a : Nat) (v : Byte) (s : State),
    HasWord (.stb a v) 0x01 a v.toNat ∧
    (a < 128 → ∃ m, exec (.stb a v) s = .next { ended s 0 false false with buf := m } ∧ m.byte a = v ∧
      (∀ j, j ≠ a → m.byte j = s.buf.byte j) ∧ (s.buf.wf = true → m.wf = true) ∧
      (s.buf.wf = true → s.buf.byte a = v → m = s.buf)) ∧
    (128 ≤ a → exec (.stb a v) s = .next (errored s 2))

/-- R52: `LDB` reads one byte, zero-extended; at 128 and above it ends with RANGE. -/
def Obligations.LdbLoadsOneByte : Prop :=
  ∀ (a : Nat) (s : State),
    HasWord (.ldb a) 0x02 a 0 ∧
    (a < 128 → exec (.ldb a) s = .next (ended s (s.buf.byte a).toNat false false)) ∧
    (128 ≤ a → exec (.ldb a) s = .next (errored s 2))

/-- R53: `CLRB` zeroes all 128 bytes at once, and then no scan finds a marker. -/
def Obligations.ClrbZeroesTheBuffer : Prop :=
  ∀ s : State,
    HasWord .clrb 0x03 0 0 ∧
    ∃ m, exec .clrb s = .next { ended s 0 false false with buf := m } ∧ m.wf = true ∧
      (∀ j, j < 128 → m.byte j = 0) ∧
      ∀ i ∈ [Instr.xors, Instr.ckf, Instr.vfy, Instr.loc], ∀ t : State, t.buf = m →
        exec i t = .next (errored t 1)

/-- A `STB` is seen by the very next command: the host stores a byte, loads it and reads `RES`. -/
def Obligations.StoredByteIsSeenByTheNextCommand : Prop :=
  ∀ (s : State) (a : Nat) (v : Byte) (rest : List Access), a < 128 →
    s.host = .command (encode (.stb a v)) :: .command (encode (.ldb a)) :: .read .bits32 0x08 :: rest →
    ∃ t : State, Host.Core.run core 3 s = .next t ∧ t.readData = some (v.setWidth 32) ∧ t.host = rest ∧
      t.buf.byte a = v ∧ ∀ j, j ≠ a → t.buf.byte j = s.buf.byte j

/-- `PUTS i, "text"` is one `STB` a character: the characters below index 128 are stored, the others end with RANGE, and the
last one decides the status. -/
def Obligations.PutsStoresTheText : Prop :=
  ∀ (text : List Byte) (i : Nat) (s : State) (rest : List Access), i + text.length ≤ 256 → text ≠ [] →
    s.host = program (puts i text) ++ rest →
    ∃ t : State, Host.Core.run core text.length s = .next t ∧ t.host = rest ∧ t.readData = s.readData ∧
      t.res = 0 ∧ t.status = ⟨if i + text.length ≤ 128 then 0 else 2, false, false⟩ ∧
      ∀ j, t.buf.byte j = if i ≤ j ∧ j < i + text.length ∧ j < 128 then text.getD (j - i) 0 else s.buf.byte j

/-! ### XOR checksum operations -/

/-- R57: `XORR` folds the slice, or ends with RANGE when it passes the end of the buffer. -/
def Obligations.XorrFoldsTheSlice : Prop :=
  ∀ (a b : Nat) (s : State),
    HasWord (.xorr a b) 0x10 a b ∧
    (a + b ≤ 128 → ∃ x, IsXor s.buf a b x ∧ exec (.xorr a b) s = .next (ended s x.toNat false false)) ∧
    (128 < a + b → exec (.xorr a b) s = .next (errored s 2))

/-- Each bit of the XOR checksum is the parity of that bit over the slice: no carry, the order of the bytes does not matter, and
a byte that occurs an even number of times cancels; bits 31:8 of `RES` are 0. -/
def Obligations.XorrBitIsParity : Prop :=
  ∀ (a b : Nat) (s : State), a + b ≤ 128 → ∃ t, exec (.xorr a b) s = .next t ∧
    ∀ k, t.res.getLsbD k =
      (decide (k < 8) &&
        decide (((Finset.range b).filter fun j => (s.buf.byte (a + j)).getLsbD k = true).card % 2 = 1))

/-- R58: `XORS` folds the bytes strictly between the sentence markers, or ends with MARKER_NOT_FOUND. -/
def Obligations.XorsFoldsBetweenTheMarkers : Prop :=
  ∀ st : State,
    HasWord .xors 0x11 0 0 ∧
    (∀ s e, Markers st.buf s e → ∃ x, IsXor st.buf (s + 1) (e - (s + 1)) x ∧
      exec .xors st = .next (ended st x.toNat false false)) ∧
    (MarkersMissing st.buf → exec .xors st = .next (errored st 1))

/-- R59: `CKF` converts the two characters after the first `*` of the buffer; MARKER_NOT_FOUND without a `*`, RANGE where
a digit position falls outside the buffer. -/
def Obligations.CkfExtractsTheChecksumField : Prop :=
  ∀ st : State,
    HasWord .ckf 0x12 0 0 ∧
    (∀ e, IsFirst st.buf 0x2A#8 0 e → e + 2 < 128 → ∃ oor, (oor = false ↔ FieldInRange st.buf e) ∧
      exec .ckf st = .next (ended st (fieldValue st.buf e + 2 ^ 8 * e) oor false)) ∧
    (∀ e, IsFirst st.buf 0x2A#8 0 e → 128 ≤ e + 2 → exec .ckf st = .next (errored st 2)) ∧
    (Missing st.buf 0x2A#8 0 → exec .ckf st = .next (errored st 1))

/-- R60: `VFY` gives the computed and the received checksum of the sentence and MATCH exactly when they are equal; a
mismatch is no error. -/
def Obligations.VfyComparesComputedAndReceived : Prop :=
  ∀ st : State,
    HasWord .vfy 0x13 0 0 ∧
    (∀ s e, Markers st.buf s e → e + 2 < 128 →
      ∃ x oor matched, IsXor st.buf (s + 1) (e - (s + 1)) x ∧ (oor = false ↔ FieldInRange st.buf e) ∧
        (matched = true ↔ x.toNat = fieldValue st.buf e) ∧
        exec .vfy st = .next (ended st (x.toNat + 2 ^ 8 * fieldValue st.buf e) oor matched)) ∧
    (∀ s e, Markers st.buf s e → 128 ≤ e + 2 → exec .vfy st = .next (errored st 2)) ∧
    (MarkersMissing st.buf → exec .vfy st = .next (errored st 1))

/-- R61: `LOC` gives the indices of the sentence markers, with `s < e <= 127`, and then `XORS` is `XORR s+1, e-s-1`; it ends
with MARKER_NOT_FOUND where `XORS` does. -/
def Obligations.LocGivesTheMarkerIndices : Prop :=
  ∀ st : State,
    HasWord .loc 0x14 0 0 ∧
    (∀ s e, Markers st.buf s e → s < e ∧ e ≤ 127 ∧
      exec .loc st = .next (ended st (s + 2 ^ 8 * e) false false) ∧ exec .xors st = exec (.xorr (s + 1) (e - s - 1)) st) ∧
    (MarkersMissing st.buf → exec .loc st = .next (errored st 1) ∧ exec .xors st = .next (errored st 1))

/-- `LOC` succeeds exactly when `XORS` does, and then `XORS` is `XORR s+1, e-s-1`. -/
def Obligations.XorsIsXorrBetweenTheIndicesOfLoc : Prop :=
  ∀ st : State, ∃ t u, exec .loc st = .next t ∧ exec .xors st = .next u ∧
    (t.status.err = 0 ↔ u.status.err = 0) ∧
    (t.status.err = 0 → ∃ s e, t.res.extractLsb' 0 8 = BitVec.ofNat 8 s ∧ t.res.extractLsb' 8 8 = BitVec.ofNat 8 e ∧
      s < e ∧ e < 128 ∧ exec (.xorr (s + 1) (e - s - 1)) st = .next u)

/-- Where both succeed, `CKF` and `LOC` use the same `*` exactly when no `*` stands before the first `$`. -/
def Obligations.CkfAndLocAgreeExactlyWithoutEarlyMarker : Prop :=
  ∀ (st : State) (s e e' : Nat), Markers st.buf s e → IsFirst st.buf 0x2A#8 0 e' → e' + 2 < 128 →
    ∃ t u, exec .loc st = .next t ∧ exec .ckf st = .next u ∧
      (resByte1 u = resByte1 t ↔ ∀ j, j < s → st.buf.byte j ≠ 0x2A#8)

/-- `CKF`'s value is `HEXR e+1, 2` at the first `*`, with the same `OOR`. -/
def Obligations.CkfValueIsHexrAfterTheMarker : Prop :=
  ∀ (st : State) (e : Nat), IsFirst st.buf 0x2A#8 0 e → e + 2 < 128 →
    ∃ t u, exec .ckf st = .next t ∧ exec (.hexr (e + 1) 2) st = .next u ∧
      u.res = (t.res.extractLsb' 0 8).setWidth 32 ∧ u.status = t.status

/-- A host that asks for MATCH = 1 and OOR = 0 accepts exactly the sentences whose field is the two upper-case hex digits of
their checksum: the false match of an out-of-range field is shut out. -/
def Obligations.StrictAcceptanceExactlyTheTrueChecksum : Prop :=
  ∀ (st : State) (s e : Nat) (x : Byte), Markers st.buf s e → e + 2 < 128 →
    IsXor st.buf (s + 1) (e - (s + 1)) x →
    ∃ t, exec .vfy st = .next t ∧
      (AcceptedStrictly t ↔ hexDigits[x.toNat / 16]? = some (st.buf.byte (e + 1)) ∧
        hexDigits[x.toNat % 16]? = some (st.buf.byte (e + 2)))

/-- A sentence that verifies does not verify any more when one byte of its body is changed to anything but a `*`. -/
def Obligations.ChangedBodyByteIsDetected : Prop :=
  ∀ (st st' : State) (s e k : Nat) (t : State), Markers st.buf s e → s < k → k < e →
    (∀ j, j ≠ k → st'.buf.byte j = st.buf.byte j) → st'.buf.byte k ≠ st.buf.byte k → st'.buf.byte k ≠ 0x2A#8 →
    exec .vfy st = .next t → t.status.matched = true →
    ∃ t', exec .vfy st' = .next t' ∧ t'.status.err = 0 ∧ t'.status.matched = false

/-- Whatever the state before, a host that clears the buffer, puts a sentence with the two hex digits of its body's XOR, and
issues `VFY` has it accepted strictly; the body is any bytes without a `*` that fit. -/
def Obligations.SentenceWithItsChecksumVerifies : Prop :=
  ∀ (body : List Byte) (hi lo : Byte) (s : State) (rest : List Access),
    body.length ≤ 124 → 0x2A#8 ∉ body →
    hexDigits[(body.foldl (· ^^^ ·) 0).toNat / 16]? = some hi →
    hexDigits[(body.foldl (· ^^^ ·) 0).toNat % 16]? = some lo →
    s.host = program (.clrb :: puts 0 (0x24#8 :: body ++ [0x2A#8, hi, lo]) ++ [.vfy]) ++ rest →
    ∃ t : State, Host.Core.run core (body.length + 6) s = .next t ∧ AcceptedStrictly t ∧ t.host = rest ∧
      t.res = BitVec.ofNat 32 (257 * (body.foldl (· ^^^ ·) 0).toNat)

/-! ### Additive checksum operations -/

/-- R62, R63: `ADDS` gives the additive pair of the slice, `ckA` in the low byte, or ends with RANGE. -/
def Obligations.AddsGivesTheAdditivePair : Prop :=
  ∀ (a b : Nat) (s : State),
    HasWord (.adds a b) 0x20 a b ∧
    (a + b ≤ 128 → ∃ ckA ckB, IsAdditivePair s.buf a b ckA ckB ∧
      exec (.adds a b) s = .next (ended s (ckA.toNat + 2 ^ 8 * ckB.toNat) false false)) ∧
    (128 < a + b → exec (.adds a b) s = .next (errored s 2))

/-- The closed form of the pair: `ckA` is the sum of the bytes and `ckB` the sum weighted by the distance from the end, both
modulo 256. -/
def Obligations.AddsClosedForm : Prop :=
  ∀ (a b : Nat) (s : State), a + b ≤ 128 →
    exec (.adds a b) s = .next (ended s
      ((∑ j ∈ Finset.range b, (s.buf.byte (a + j)).toNat) % 256 +
        2 ^ 8 * ((∑ j ∈ Finset.range b, (b - j) * (s.buf.byte (a + j)).toNat) % 256)) false false)

/-- R64: `ADDV` compares the pair of the slice with the two bytes after it; a mismatch is no error; RANGE when those two
bytes pass the end of the buffer. -/
def Obligations.AddvComparesWithTheStoredPair : Prop :=
  ∀ (a b : Nat) (s : State),
    HasWord (.addv a b) 0x21 a b ∧
    (a + b + 2 ≤ 128 → ∃ ckA ckB matched, IsAdditivePair s.buf a b ckA ckB ∧
      (matched = true ↔ ckA = s.buf.byte (a + b) ∧ ckB = s.buf.byte (a + b + 1)) ∧
      exec (.addv a b) s = .next (ended s (ckA.toNat + 2 ^ 8 * ckB.toNat + 2 ^ 16 * (s.buf.byte (a + b)).toNat +
        2 ^ 24 * (s.buf.byte (a + b + 1)).toNat) false matched)) ∧
    (128 < a + b + 2 → exec (.addv a b) s = .next (errored s 2))

/-- A host that stores the two low bytes of `ADDS`'s result after the slice, in order, gets MATCH from `ADDV`. -/
def Obligations.AppendedAdditiveChecksumVerifies : Prop :=
  ∀ (a b : Nat) (s : State), a + b + 2 ≤ 128 →
    ∃ t1 t2 t3 t4, exec (.adds a b) s = .next t1 ∧ exec (.stb (a + b) (t1.res.extractLsb' 0 8)) t1 = .next t2 ∧
      exec (.stb (a + b + 1) (t1.res.extractLsb' 8 8)) t2 = .next t3 ∧ exec (.addv a b) t3 = .next t4 ∧
      t4.status = ⟨0, false, true⟩ ∧ t4.res.extractLsb' 0 16 = t1.res.extractLsb' 0 16

/-! ### Field decoder operations -/

/-- R65, R68: `HEXN` gives the place of the character among `0` to `9`, `A` to `F`, and 0 with OOR for any other. -/
def Obligations.HexnDecodesOneHexDigit : Prop :=
  ∀ (c : Byte) (s : State),
    HasWord (.hexn c) 0x30 c.toNat 0 ∧
    ∃ oor, (oor = false ↔ c ∈ hexDigits) ∧ exec (.hexn c) s = .next (ended s (digitValue hexDigits c) oor false)

/-- R66, R69: `DECN` gives the place of the character among `0` to `9`, and 0 with OOR for any other. -/
def Obligations.DecnDecodesOneDecimalDigit : Prop :=
  ∀ (c : Byte) (s : State),
    HasWord (.decn c) 0x31 c.toNat 0 ∧
    ∃ oor, (oor = false ↔ c ∈ decimalDigits) ∧
      exec (.decn c) s = .next (ended s (digitValue decimalDigits c) oor false)

/-- R67, R70: `POW10` gives ten to the power 0 to 9, and 0 with OOR above. -/
def Obligations.Pow10LooksUpThePower : Prop :=
  ∀ (n : Nat) (s : State),
    HasWord (.pow10 n) 0x32 n 0 ∧
    (n ≤ 9 → exec (.pow10 n) s = .next (ended s (10 ^ n) false false)) ∧
    (10 ≤ n → exec (.pow10 n) s = .next (ended s 0 true false))

/-- R71: `HEXR` gives the value of the hex run exactly, below 2^32; OOR when a character is no hex digit; RANGE for more than
8 digits or a run past the end of the buffer. -/
def Obligations.HexrConvertsTheHexRun : Prop :=
  ∀ (a b : Nat) (s : State),
    HasWord (.hexr a b) 0x33 a b ∧
    (b ≤ 8 → a + b ≤ 128 → ∃ oor, (oor = false ↔ RunInRange hexDigits s.buf a b) ∧
      runValue hexDigits 16 s.buf a b < 2 ^ 32 ∧
      exec (.hexr a b) s = .next (ended s (runValue hexDigits 16 s.buf a b) oor false)) ∧
    (8 < b ∨ 128 < a + b → exec (.hexr a b) s = .next (errored s 2))

/-- R72: `DECR` gives the value of the decimal run exactly, at most 999999999; OOR when a character is no digit; RANGE for
more than 9 digits or a run past the end of the buffer. -/
def Obligations.DecrConvertsTheDecimalRun : Prop :=
  ∀ (a b : Nat) (s : State),
    HasWord (.decr a b) 0x34 a b ∧
    (b ≤ 9 → a + b ≤ 128 → ∃ oor, (oor = false ↔ RunInRange decimalDigits s.buf a b) ∧
      runValue decimalDigits 10 s.buf a b ≤ 999999999 ∧
      exec (.decr a b) s = .next (ended s (runValue decimalDigits 10 s.buf a b) oor false)) ∧
    (9 < b ∨ 128 < a + b → exec (.decr a b) s = .next (errored s 2))

/-- The parameter `HEX_LOWERCASE` moves six characters only: with `accept`, `a` to `f` are 10 to 15 and in range; every other
character decodes as with `reject`, the model's value (log 9). -/
def Obligations.LowercaseParameterMovesSixCharactersOnly : Prop :=
  ∀ c : Byte, nibWith .accept c = if 0x61 ≤ c.toNat ∧ c.toNat ≤ 0x66 then (c.toNat - 0x57, false) else nib c
end

