-- ==== Sys2Proof/Laws/Memory.lean ====
section
/-! SUPPORT. The laws of the buffer: a read after a write, what a write leaves alone, and that every memory operation keeps the
canonical form. -/

namespace Sys2Proof.Machine

@[simp] theorem bufCap_eq : Config.bufCap = 128 := rfl
@[simp] theorem hexMax_eq : Config.hexMax = 8 := rfl
@[simp] theorem decMax_eq : Config.decMax = 9 := rfl

theorem Memory.read_write_same (m : Memory) (i : Nat) (w : Byte) : (m.write i w).read i = some w := by
  induction m with
  | nil => simp [Memory.write, Memory.read]
  | cons c m ih =>
    obtain ⟨a, v⟩ := c
    unfold Memory.write
    split
    · simp [Memory.read]
    · split
      · simp [Memory.read]
      · simp [Memory.read, *]

theorem Memory.read_write_other (m : Memory) {i j : Nat} (w : Byte) (h : j ≠ i) :
    (m.write i w).read j = m.read j := by
  induction m with
  | nil => simp [Memory.write, Memory.read, Ne.symm h]
  | cons c m ih =>
    obtain ⟨a, v⟩ := c
    unfold Memory.write
    split
    · simp [Memory.read, Ne.symm h]
    · split
      · next ha => subst ha; simp [Memory.read, Ne.symm h]
      · simp only [Memory.read, ih]

@[simp] theorem Memory.byte_write_same (m : Memory) (i : Nat) (w : Byte) : (m.write i w).byte i = w := by
  simp [Memory.byte, Memory.read_write_same]

theorem Memory.byte_write_other (m : Memory) {i j : Nat} (w : Byte) (h : j ≠ i) :
    (m.write i w).byte j = m.byte j := by
  simp [Memory.byte, Memory.read_write_other m w h]

/-- Writing the same byte again changes nothing. -/
theorem Memory.write_write (m : Memory) (i : Nat) (w : Byte) : (m.write i w).write i w = m.write i w := by
  induction m with
  | nil => simp [Memory.write]
  | cons c m ih =>
    obtain ⟨a, v⟩ := c
    by_cases h1 : i < a
    · simp [Memory.write, h1]
    · by_cases h2 : a = i
      · simp [Memory.write, h2]
      · simp [Memory.write, h1, h2, ih]

/-- Writing to a listed index keeps the list of indices. -/
theorem Memory.write_indices (m : Memory) (lo n i : Nat) (w : Byte) (hm : m.map Prod.fst = List.range' lo n)
    (hi : lo ≤ i) (hn : i < lo + n) : (m.write i w).map Prod.fst = m.map Prod.fst := by
  induction m generalizing lo n with
  | nil => cases n with
    | zero => omega
    | succ n => simp [List.range'_succ] at hm
  | cons c m ih =>
    obtain ⟨a, v⟩ := c
    cases n with
    | zero => simp at hm
    | succ n =>
      simp only [List.map_cons, List.range'_succ, List.cons.injEq] at hm
      obtain ⟨rfl, hm⟩ := hm
      by_cases h : a = i
      · simp [Memory.write, h]
      · have h1 : ¬ i < a := by omega
        simp only [Memory.write, h1, h, if_false, List.map_cons]
        rw [ih (a + 1) n hm (by omega) (by omega)]

theorem Memory.wf_iff (m : Memory) : m.wf = true ↔ m.map Prod.fst = List.range Config.bufCap := by
  simp [Memory.wf]

theorem Memory.wf_write (m : Memory) (i : Nat) (w : Byte) (hm : m.wf = true) (hi : i < Config.bufCap) :
    (m.write i w).wf = true := by
  rw [Memory.wf_iff] at *
  rw [Memory.write_indices m 0 Config.bufCap i w (by rw [hm, List.range_eq_range']) (Nat.zero_le _) (by omega), hm]

@[simp] theorem Memory.wf_fill (f : Nat → Byte) : (Memory.fill f).wf = true := by
  simp [Memory.wf, Memory.fill, List.map_map, Function.comp_def]

theorem Memory.read_map_range' (f : Nat → Byte) (lo n i : Nat) :
    Memory.read ((List.range' lo n).map fun i => (i, f i)) i =
      if lo ≤ i ∧ i < lo + n then some (f i) else none := by
  induction n generalizing lo with
  | zero => simp [Memory.read]
  | succ n ih =>
    simp only [List.range'_succ, List.map_cons, Memory.read, ih]
    by_cases h : lo = i
    · subst h; simp
    · simp only [h, if_false]
      by_cases h2 : lo + 1 ≤ i ∧ i < lo + 1 + n
      · rw [if_pos h2, if_pos (by omega)]
      · rw [if_neg h2, if_neg (by omega)]

theorem Memory.byte_fill (f : Nat → Byte) {i : Nat} (h : i < Config.bufCap) : (Memory.fill f).byte i = f i := by
  simp [Memory.byte, Memory.fill, List.range_eq_range', Memory.read_map_range', h]

/-- A well-formed buffer is the list of its bytes. -/
theorem Memory.map_byte_indices (m : Memory) (hm : (m.map Prod.fst).Nodup) :
    (m.map Prod.fst).map (fun i => (i, m.byte i)) = m := by
  induction m with
  | nil => rfl
  | cons c m ih =>
    obtain ⟨a, v⟩ := c
    simp only [List.map_cons, List.nodup_cons] at hm
    obtain ⟨ha, hm⟩ := hm
    have hb : Memory.byte ((a, v) :: m) a = v := by simp [Memory.byte, Memory.read]
    simp only [List.map_cons, hb, List.cons.injEq, true_and]
    refine Eq.trans (List.map_congr_left fun i hi => ?_) (ih hm)
    have : a ≠ i := fun h => ha (h ▸ hi)
    simp [Memory.byte, Memory.read, this]

theorem Memory.fill_byte (m : Memory) (hm : m.wf = true) : Memory.fill m.byte = m := by
  rw [Memory.wf_iff] at hm
  have h := Memory.map_byte_indices m (hm ▸ List.nodup_range)
  rw [hm] at h
  exact h

/-- Equal buffers are equal data: two well-formed buffers with the same 128 bytes are the same list. -/
theorem Memory.ext_of_wf (m m' : Memory) (hm : m.wf = true) (hm' : m'.wf = true)
    (h : ∀ i, i < Config.bufCap → m.byte i = m'.byte i) : m = m' := by
  rw [← Memory.fill_byte m hm, ← Memory.fill_byte m' hm']
  exact List.map_congr_left fun i hi => by rw [h i (List.mem_range.mp hi)]

theorem Memory.read_eq_none_iff (m : Memory) (i : Nat) : m.read i = none ↔ i ∉ m.map Prod.fst := by
  induction m with
  | nil => simp [Memory.read]
  | cons c m ih =>
    obtain ⟨a, v⟩ := c
    by_cases h : a = i
    · subst h; simp [Memory.read]
    · simp only [Memory.read, h, if_false, ih, List.map_cons, List.mem_cons, not_or]
      exact ⟨fun hi => ⟨Ne.symm h, hi⟩, fun hi => hi.2⟩

/-- In a well-formed buffer exactly the indices below `BUF_CAP` exist. -/
theorem Memory.read_isSome_iff (m : Memory) (hm : m.wf = true) (i : Nat) :
    (m.read i).isSome = true ↔ i < Config.bufCap := by
  rw [Memory.wf_iff] at hm
  have h := Memory.read_eq_none_iff m i
  rw [hm, List.mem_range] at h
  rw [Option.isSome_iff_ne_none, Ne, h, Decidable.not_not]

/-- Outside a well-formed buffer there is no byte: the total read gives the free value. -/
theorem Memory.byte_outside (m : Memory) (hm : m.wf = true) {i : Nat} (h : Config.bufCap ≤ i) :
    m.byte i = Config.absentByte i := by
  have h1 : m.read i = none := by
    rw [Memory.read_eq_none_iff, (Memory.wf_iff m).mp hm, List.mem_range]
    omega
  simp [Memory.byte, h1]

/-- `CLRB`'s loop of single writes (R53) and its fill are the same on a well-formed buffer: writing `f i` at every index gives
`fill f`. -/
theorem Memory.foldl_write_byte (f : Nat → Byte) (idx : List Nat) (m : Memory) (j : Nat) :
    (idx.foldl (fun m i => m.write i (f i)) m).byte j = if j ∈ idx then f j else m.byte j := by
  induction idx generalizing m with
  | nil => simp
  | cons i idx ih =>
    rw [List.foldl_cons, ih]
    by_cases h1 : j ∈ idx
    · simp [h1]
    · by_cases h2 : j = i
      · subst h2; simp [h1]
      · simp [h1, h2, Memory.byte_write_other m (f i) h2]

theorem Memory.foldl_write_wf (f : Nat → Byte) (idx : List Nat) (m : Memory) (hm : m.wf = true)
    (hi : ∀ i ∈ idx, i < Config.bufCap) : (idx.foldl (fun m i => m.write i (f i)) m).wf = true := by
  induction idx generalizing m with
  | nil => exact hm
  | cons i idx ih =>
    exact ih _ (Memory.wf_write m i (f i) hm (hi i (by simp))) fun k hk => hi k (by simp [hk])

theorem Memory.clear_loop_eq_fill (m : Memory) (hm : m.wf = true) :
    (List.range Config.bufCap).foldl (fun m i => m.write i 0) m = Memory.fill fun _ => 0 := by
  refine Memory.ext_of_wf _ _ (Memory.foldl_write_wf (fun _ => 0) _ m hm fun i hi => List.mem_range.mp hi)
    (Memory.wf_fill _) fun i hi => ?_
  rw [Memory.foldl_write_byte (fun _ => 0), Memory.byte_fill _ hi]
  simp [hi]

@[simp] theorem Memory.slice_empty (m : Memory) (lo : Nat) : m.slice lo lo = [] := by simp [Memory.slice]

theorem Memory.slice_add (m : Memory) (lo n : Nat) : m.slice lo (lo + n) = (List.range' lo n).map m.byte := by
  simp [Memory.slice]

@[simp] theorem Memory.length_slice (m : Memory) (lo n : Nat) : (m.slice lo (lo + n)).length = n := by
  simp [Memory.slice]

/-- One byte more at the end of a slice. -/
theorem Memory.slice_succ (m : Memory) (lo n : Nat) :
    m.slice lo (lo + (n + 1)) = m.slice lo (lo + n) ++ [m.byte (lo + n)] := by
  simp [Memory.slice_add, List.range'_concat]

/-- One byte more at the front of a slice. -/
theorem Memory.slice_cons (m : Memory) (lo n : Nat) :
    m.slice lo (lo + (n + 1)) = m.byte lo :: m.slice (lo + 1) (lo + 1 + n) := by
  simp [Memory.slice_add, List.range'_succ]

/-- A slice depends on its own bytes only. -/
theorem Memory.slice_congr (m m' : Memory) (lo n : Nat) (h : ∀ j, j < n → m.byte (lo + j) = m'.byte (lo + j)) :
    m.slice lo (lo + n) = m'.slice lo (lo + n) := by
  rw [Memory.slice_add, Memory.slice_add]
  refine List.map_congr_left fun i hi => ?_
  obtain ⟨j, hj, rfl⟩ := List.mem_range'.mp hi
  simpa using h j hj

end Sys2Proof.Machine
end

