-- ==== Sys2Proof/Laws/Ops.lean ====
section
/-! SUPPORT. What each shared operation answers, said once: the marker search, the folds, the checksum field, the runs. -/

namespace Sys2Proof.Machine

theorem find_eq_some_iff (m : Memory) (c : Byte) (start i : Nat) :
    find m c start = some i ↔
      start ≤ i ∧ i < Config.bufCap ∧ m.byte i = c ∧ ∀ j, start ≤ j → j < i → m.byte j ≠ c := by
  unfold find
  rw [List.find?_range'_eq_some]
  constructor
  · rintro ⟨hc, hi, hj⟩
    rw [List.mem_range'_1] at hi
    refine ⟨hi.1, by omega, by simpa using hc, fun j h1 h2 => ?_⟩
    simpa using hj j h1 h2
  · rintro ⟨h1, h2, h3, h4⟩
    refine ⟨by simpa using h3, by rw [List.mem_range'_1]; omega, fun j hj1 hj2 => by simpa using h4 j hj1 hj2⟩

theorem find_eq_none_iff (m : Memory) (c : Byte) (start : Nat) :
    find m c start = none ↔ ∀ j, start ≤ j → j < Config.bufCap → m.byte j ≠ c := by
  unfold find
  rw [List.find?_eq_none]
  constructor
  · intro h j h1 h2
    simpa using h j (by rw [List.mem_range'_1]; omega)
  · intro h j hj
    rw [List.mem_range'_1] at hj
    simpa using h j hj.1 (by omega)

/-- The search from an index at or above `BUF_CAP` finds nothing (R56). -/
theorem find_past_end (m : Memory) (c : Byte) {start : Nat} (h : Config.bufCap ≤ start) : find m c start = none := by
  rw [find_eq_none_iff]
  intro j h1 h2
  omega

/-- The search depends on the bytes up to the marker found, and on all of the buffer where none is found. -/
theorem find_congr (m m' : Memory) (c : Byte) (start : Nat)
    (h : ∀ j, (∀ i, find m c start = some i → j ≤ i) → start ≤ j → j < Config.bufCap → m.byte j = m'.byte j) :
    find m c start = find m' c start := by
  cases hf : find m c start with
  | none =>
    rw [find_eq_none_iff] at hf
    symm
    rw [find_eq_none_iff]
    intro j h1 h2
    rw [← h j (by intro i hi; rw [(find_eq_none_iff m c start).mpr hf] at hi; cases hi) h1 h2]
    exact hf j h1 h2
  | some i =>
    have hs := (find_eq_some_iff m c start i).mp hf
    symm
    rw [find_eq_some_iff]
    have hle : ∀ j, j ≤ i → ∀ k, find m c start = some k → j ≤ k := by
      intro j hj k hk
      rw [hf] at hk
      cases hk
      exact hj
    refine ⟨hs.1, hs.2.1, ?_, fun j h1 h2 => ?_⟩
    · rw [← h i (hle i (Nat.le_refl i)) hs.1 hs.2.1]
      exact hs.2.2.1
    · rw [← h j (hle j (by omega)) h1 (by omega)]
      exact hs.2.2.2 j h1 h2

theorem sentenceMarkers_of_none (m : Memory) (h : find m Config.startMarker 0 = none) :
    sentenceMarkers m = .error .markerNotFound := by
  unfold sentenceMarkers
  rw [h]

theorem sentenceMarkers_of_some_none (m : Memory) {s : Nat} (h : find m Config.startMarker 0 = some s)
    (h' : find m Config.checksumMarker (s + 1) = none) : sentenceMarkers m = .error .markerNotFound := by
  unfold sentenceMarkers
  rw [h]
  dsimp only
  rw [h']

theorem sentenceMarkers_of_some_some (m : Memory) {s e : Nat} (h : find m Config.startMarker 0 = some s)
    (h' : find m Config.checksumMarker (s + 1) = some e) : sentenceMarkers m = .ok (s, e) := by
  unfold sentenceMarkers
  rw [h]
  dsimp only
  rw [h']

/-- The three ways the search for the two markers ends. -/
theorem sentenceMarkers_cases (m : Memory) :
    (find m Config.startMarker 0 = none ∧ sentenceMarkers m = .error .markerNotFound) ∨
    (∃ s, find m Config.startMarker 0 = some s ∧ find m Config.checksumMarker (s + 1) = none ∧
      sentenceMarkers m = .error .markerNotFound) ∨
    (∃ s e, find m Config.startMarker 0 = some s ∧ find m Config.checksumMarker (s + 1) = some e ∧
      sentenceMarkers m = .ok (s, e)) := by
  cases hs : find m Config.startMarker 0 with
  | none => exact .inl ⟨rfl, sentenceMarkers_of_none m hs⟩
  | some s =>
    cases he : find m Config.checksumMarker (s + 1) with
    | none => exact .inr (.inl ⟨s, rfl, he, sentenceMarkers_of_some_none m hs he⟩)
    | some e => exact .inr (.inr ⟨s, e, rfl, he, sentenceMarkers_of_some_some m hs he⟩)

theorem sentenceMarkers_eq_ok (m : Memory) (s e : Nat) :
    sentenceMarkers m = .ok (s, e) ↔
      find m Config.startMarker 0 = some s ∧ find m Config.checksumMarker (s + 1) = some e := by
  refine ⟨fun h => ?_, fun h => sentenceMarkers_of_some_some m h.1 h.2⟩
  obtain ⟨-, h'⟩ | ⟨_, -, -, h'⟩ | ⟨s', e', hs, he, h'⟩ := sentenceMarkers_cases m
  · rw [h'] at h; cases h
  · rw [h'] at h; cases h
  · rw [h'] at h
    cases h
    exact ⟨hs, he⟩

theorem sentenceMarkers_eq_error (m : Memory) (x : ErrorCode) :
    sentenceMarkers m = .error x ↔ x = .markerNotFound ∧
      (find m Config.startMarker 0 = none ∨
        ∃ s, find m Config.startMarker 0 = some s ∧ find m Config.checksumMarker (s + 1) = none) := by
  constructor
  · intro h
    obtain ⟨hs, h'⟩ | ⟨s, hs, he, h'⟩ | ⟨s, e, hs, he, h'⟩ := sentenceMarkers_cases m
    · rw [h'] at h; cases h
      exact ⟨rfl, .inl hs⟩
    · rw [h'] at h; cases h
      exact ⟨rfl, .inr ⟨s, hs, he⟩⟩
    · rw [h'] at h; cases h
  · rintro ⟨rfl, hs | ⟨s, hs, he⟩⟩
    · exact sentenceMarkers_of_none m hs
    · exact sentenceMarkers_of_some_none m hs he

/-- `0 <= s < e <= 127` for the markers found (R61). -/
theorem sentenceMarkers_bounds (m : Memory) (s e : Nat) (h : sentenceMarkers m = .ok (s, e)) :
    s < e ∧ e < Config.bufCap := by
  have h2 := (find_eq_some_iff _ _ _ _).mp ((sentenceMarkers_eq_ok m s e).mp h).2
  exact ⟨h2.1, h2.2.1⟩

theorem xorfold_self (m : Memory) (lo : Nat) : xorfold m lo lo = 0 := by
  simp [xorfold, xorBytes]

theorem xorfold_succ (m : Memory) (lo n : Nat) :
    xorfold m lo (lo + (n + 1)) = xorfold m lo (lo + n) ^^^ m.byte (lo + n) := by
  simp only [xorfold, xorBytes, Memory.slice_succ, List.foldl_append, List.foldl_cons, List.foldl_nil]

theorem addfold_self (m : Memory) (lo : Nat) : addfold m lo lo = (0, 0) := by
  simp [addfold, addBytes]

theorem addfold_succ (m : Memory) (lo n : Nat) :
    addfold m lo (lo + (n + 1)) = addStep (addfold m lo (lo + n)) (m.byte (lo + n)) := by
  simp only [addfold, addBytes, Memory.slice_succ, List.foldl_append, List.foldl_cons, List.foldl_nil]

theorem checksumField_eq (m : Memory) (e : Nat) (h : e + 2 < Config.bufCap) :
    checksumField m e = .ok (nibblePair (nib (m.byte (e + 1))).1 (nib (m.byte (e + 2))).1,
      (nib (m.byte (e + 1))).2 || (nib (m.byte (e + 2))).2) := by
  unfold checksumField
  rw [if_pos h]

theorem checksumField_cut_off (m : Memory) (e : Nat) (h : Config.bufCap ≤ e + 2) :
    checksumField m e = .error .range := by
  unfold checksumField
  rw [if_neg (by omega)]

theorem hexRun_nil : hexRun [] = (0, false) := rfl

theorem hexRun_concat (cs : List Byte) (c : Byte) :
    hexRun (cs ++ [c]) = ((hexRun cs).1 * 16 + (nib c).1, (hexRun cs).2 || (nib c).2) := by
  simp [hexRun, List.foldl_append]

theorem decRun_nil : decRun [] = (0, false) := rfl

theorem decRun_cons (c : Byte) (cs : List Byte) :
    decRun (c :: cs) = ((dig c).1 * (pow10 cs.length).1 + (decRun cs).1, (dig c).2 || (decRun cs).2) := rfl

/-- The table holds the powers of ten (R67). -/
theorem pow10_eq {n : Nat} (h : n < 10) : pow10 n = (10 ^ n, false) := by
  revert n
  decide

theorem pow10_out_of_range {n : Nat} (h : 10 ≤ n) : pow10 n = (0, true) := by
  unfold pow10
  rw [List.getElem?_eq_none (by simpa [pow10Table] using h)]

end Sys2Proof.Machine
end

