-- ==== Sys2Proof/Laws/State.lean ====
section
/-! SUPPORT. One lemma for each field of the state after each shared update of it: `complete`, `raise`, `platformReset`. -/

namespace Sys2Proof.Machine

variable (s : State) (r : Result) (e : ErrorCode)

@[simp] theorem State.complete_buf : (s.complete r).buf = s.buf := rfl
@[simp] theorem State.complete_res : (s.complete r).res = r.res := rfl
@[simp] theorem State.complete_status : (s.complete r).status = ⟨0, r.oor, r.matched⟩ := rfl
@[simp] theorem State.complete_host : (s.complete r).host = s.host := rfl
@[simp] theorem State.complete_readData : (s.complete r).readData = s.readData := rfl
@[simp] theorem State.complete_resets : (s.complete r).resets = s.resets := rfl

@[simp] theorem State.raise_buf : (s.raise e).buf = s.buf := rfl
@[simp] theorem State.raise_res : (s.raise e).res = 0 := rfl
@[simp] theorem State.raise_status : (s.raise e).status = ⟨e.code, false, false⟩ := rfl
@[simp] theorem State.raise_host : (s.raise e).host = s.host := rfl
@[simp] theorem State.raise_readData : (s.raise e).readData = s.readData := rfl
@[simp] theorem State.raise_resets : (s.raise e).resets = s.resets := rfl

@[simp] theorem State.platformReset_buf :
    s.platformReset.buf = Memory.fill (Config.bufInit (s.resets + 1)) := rfl
@[simp] theorem State.platformReset_res : s.platformReset.res = 0 := rfl
@[simp] theorem State.platformReset_status : s.platformReset.status = ⟨0, false, false⟩ := rfl
@[simp] theorem State.platformReset_host : s.platformReset.host = s.host := rfl
@[simp] theorem State.platformReset_readData : s.platformReset.readData = s.readData := rfl
@[simp] theorem State.platformReset_resets : s.platformReset.resets = s.resets + 1 := rfl

@[simp] theorem State.finish_ok : s.finish (.ok r) = s.complete r := rfl
@[simp] theorem State.finish_error : s.finish (.error e) = s.raise e := rfl

/-- However an operation ends, only `RES` and `STATUS` are written. -/
theorem State.finish_frame (o : Except ErrorCode Result) :
    (s.finish o).buf = s.buf ∧ (s.finish o).host = s.host ∧ (s.finish o).readData = s.readData ∧
      (s.finish o).resets = s.resets := by
  cases o <;> exact ⟨rfl, rfl, rfl, rfl⟩

@[simp] theorem State.finish_buf (o : Except ErrorCode Result) : (s.finish o).buf = s.buf :=
  (s.finish_frame o).1

/-- What an operation writes depends on how it ends and on nothing the state holds. -/
theorem State.finish_res_status (s t : State) (o : Except ErrorCode Result) :
    (s.finish o).res = (t.finish o).res ∧ (s.finish o).status = (t.finish o).status := by
  cases o <;> exact ⟨rfl, rfl⟩

theorem Result.plain_eq (v : Word) : Result.plain v = ⟨v, false, false⟩ := rfl
theorem Result.decoded_eq (v : Word) (o : Bool) : Result.decoded v o = ⟨v, o, false⟩ := rfl

theorem ErrorCode.code_ne_zero : e.code ≠ 0 := by cases e <;> decide
theorem ErrorCode.code_toNat_le : e.code.toNat ≤ 3 := by cases e <;> decide

end Sys2Proof.Machine
end

