-- ==== Sys2Proof/Laws/Terms.lean ====
section
/-! SUPPORT. The machine's shared operations in the terms claims are stated in (Safety.lean): a proof about an operation cites
these and unfolds neither side again. -/

namespace Sys2Proof.Machine

open Sys2Proof.Safety

theorem find_iff_isFirst (m : Memory) (c : Byte) (start i : Nat) : find m c start = some i ↔ IsFirst m c start i :=
  find_eq_some_iff m c start i

theorem find_iff_missing (m : Memory) (c : Byte) (start : Nat) : find m c start = none ↔ Missing m c start :=
  find_eq_none_iff m c start

theorem sentenceMarkers_iff_markers (m : Memory) (s e : Nat) : sentenceMarkers m = .ok (s, e) ↔ Markers m s e := by
  rw [sentenceMarkers_eq_ok, find_iff_isFirst, find_iff_isFirst]
  rfl

theorem sentenceMarkers_iff_missing (m : Memory) (x : ErrorCode) :
    sentenceMarkers m = .error x ↔ x = .markerNotFound ∧ MarkersMissing m := by
  rw [sentenceMarkers_eq_error, find_iff_missing]
  simp only [find_iff_isFirst, find_iff_missing]
  rfl

theorem isFirst_unique {m : Memory} {c : Byte} {start i j : Nat} (hi : IsFirst m c start i)
    (hj : IsFirst m c start j) : i = j := by
  rw [← find_iff_isFirst] at hi hj
  exact Option.some.inj (hi.symm.trans hj)

theorem isFirst_not_missing {m : Memory} {c : Byte} {start i : Nat} (hi : IsFirst m c start i) :
    ¬ Missing m c start := fun h => h i hi.1 hi.2.1 hi.2.2.1

theorem markers_unique {m : Memory} {s e s' e' : Nat} (h : Markers m s e) (h' : Markers m s' e') :
    s = s' ∧ e = e' := by
  have hs := isFirst_unique h.1 h'.1
  subst hs
  exact ⟨rfl, isFirst_unique h.2 h'.2⟩

theorem markers_not_missing {m : Memory} {s e : Nat} (h : Markers m s e) : ¬ MarkersMissing m := by
  rintro (h' | ⟨s', h1, h2⟩)
  · exact isFirst_not_missing h.1 h'
  · have hs := isFirst_unique h.1 h1
    subst hs
    exact isFirst_not_missing h.2 h2

theorem xorfold_isXor (m : Memory) (lo n : Nat) : IsXor m lo n (xorfold m lo (lo + n)) :=
  ⟨fun j => xorfold m lo (lo + j), xorfold_self m lo, fun j _ => xorfold_succ m lo j, rfl⟩

theorem isXor_unique (m : Memory) (lo n : Nat) (x y : Byte) (hx : IsXor m lo n x) (hy : IsXor m lo n y) : x = y := by
  obtain ⟨f, hf0, hf, rfl⟩ := hx
  obtain ⟨g, hg0, hg, rfl⟩ := hy
  have h : ∀ j, j ≤ n → f j = g j := by
    intro j
    induction j with
    | zero => intro _; rw [hf0, hg0]
    | succ j ih => intro hj; rw [hf j (by omega), hg j (by omega), ih (by omega)]
  exact h n (Nat.le_refl n)

theorem isXor_iff (m : Memory) (lo n : Nat) (x : Byte) : IsXor m lo n x ↔ x = xorfold m lo (lo + n) :=
  ⟨fun h => isXor_unique m lo n _ _ h (xorfold_isXor m lo n), fun h => h ▸ xorfold_isXor m lo n⟩

/-- The XOR of what lies strictly between two indices. -/
theorem xorfold_between (m : Memory) {lo hi : Nat} (h : lo ≤ hi) : IsXor m lo (hi - lo) (xorfold m lo hi) := by
  have hx := xorfold_isXor m lo (hi - lo)
  rwa [Nat.add_sub_cancel' h] at hx

theorem addfold_isAdditivePair (m : Memory) (lo n : Nat) :
    IsAdditivePair m lo n (addfold m lo (lo + n)).1 (addfold m lo (lo + n)).2 := by
  refine ⟨fun j => (addfold m lo (lo + j)).1.toNat, fun j => (addfold m lo (lo + j)).2.toNat, ?_, ?_, fun j _ => ?_,
    rfl, rfl⟩
  · simp [addfold_self]
  · simp [addfold_self]
  · simp [addfold_succ, addStep, BitVec.toNat_add]

/-- `nib` in the terms of the digit alphabet (R65). -/
theorem nib_eq : ∀ c : Byte, nib c = (digitValue hexDigits c, decide (c ∉ hexDigits)) := by decide

/-- `dig` in the terms of the digit alphabet (R66). -/
theorem dig_eq : ∀ c : Byte, dig c = (digitValue decimalDigits c, decide (c ∉ decimalDigits)) := by decide

theorem digitValue_hex_lt : ∀ c : Byte, digitValue hexDigits c < 16 := by decide

theorem digitValue_decimal_lt : ∀ c : Byte, digitValue decimalDigits c < 10 := by decide

/-- A hex run is the sum of its digits' weights, and is out of range when one of its characters is (R71). -/
theorem hexRun_slice (m : Memory) (lo n : Nat) :
    (hexRun (m.slice lo (lo + n))).1 = runValue hexDigits 16 m lo n ∧
      ((hexRun (m.slice lo (lo + n))).2 = false ↔ RunInRange hexDigits m lo n) := by
  induction n with
  | zero => simp [hexRun_nil, runValue, RunInRange]
  | succ n ih =>
    rw [Memory.slice_succ, hexRun_concat, nib_eq]
    refine ⟨?_, ?_⟩
    · simp only [ih.1, runValue]
      rw [Finset.sum_range_succ, Finset.sum_mul]
      refine congrArg₂ (· + ·) (Finset.sum_congr rfl fun j hj => ?_) (by simp)
      have hj' := Finset.mem_range.mp hj
      rw [Nat.mul_assoc, ← Nat.pow_succ]
      congr 2
      omega
    · simp only [Bool.or_eq_false_iff, ih.2, decide_eq_false_iff_not, Decidable.not_not, RunInRange]
      constructor
      · rintro ⟨h1, h2⟩ j hj
        rcases Nat.lt_succ_iff_lt_or_eq.mp hj with h | rfl
        · exact h1 j h
        · exact h2
      · intro h
        exact ⟨fun j hj => h j (by omega), h n (by omega)⟩

/-- A decimal run of at most ten digits is the sum of its digits' weights, and is out of range when one of its characters
is (R72). -/
theorem decRun_slice (m : Memory) (n : Nat) : ∀ lo, n ≤ 10 →
    (decRun (m.slice lo (lo + n))).1 = runValue decimalDigits 10 m lo n ∧
      ((decRun (m.slice lo (lo + n))).2 = false ↔ RunInRange decimalDigits m lo n) := by
  induction n with
  | zero => intro lo _; simp [decRun_nil, runValue, RunInRange]
  | succ n ih =>
    intro lo hn
    have ih := ih (lo + 1) (by omega)
    rw [Memory.slice_cons, decRun_cons, dig_eq, Memory.length_slice, pow10_eq (by omega)]
    refine ⟨?_, ?_⟩
    · simp only [ih.1, runValue]
      rw [Finset.sum_range_succ', Nat.add_comm]
      refine congrArg₂ (· + ·) (Finset.sum_congr rfl fun j hj => ?_) (by simp)
      have hj' := Finset.mem_range.mp hj
      rw [show lo + 1 + j = lo + (j + 1) by omega, show n + 1 - 1 - (j + 1) = n - 1 - j by omega]
    · simp only [Bool.or_eq_false_iff, ih.2, decide_eq_false_iff_not, Decidable.not_not, RunInRange]
      constructor
      · rintro ⟨h1, h2⟩ j hj
        cases j with
        | zero => exact h1
        | succ j =>
          rw [show lo + (j + 1) = lo + 1 + j by omega]
          exact h2 j (by omega)
      · intro h
        refine ⟨h 0 (by omega), fun j hj => ?_⟩
        rw [show lo + 1 + j = lo + (j + 1) by omega]
        exact h (j + 1) (by omega)

/-- A run of `n` digits of a base is below `base^n` (R71, R72: no overflow). -/
theorem runValue_lt (digits : List Byte) (base : Nat) (hd : ∀ c, digitValue digits c < base) (m : Memory)
    (n : Nat) : ∀ lo, runValue digits base m lo n < base ^ n := by
  induction n with
  | zero => intro lo; simp [runValue]
  | succ n ih =>
    intro lo
    have h : runValue digits base m lo (n + 1) =
        digitValue digits (m.byte lo) * base ^ n + runValue digits base m (lo + 1) n := by
      simp only [runValue]
      rw [Finset.sum_range_succ', Nat.add_comm]
      refine congrArg₂ (· + ·) (by simp) (Finset.sum_congr rfl fun j hj => ?_)
      have hj' := Finset.mem_range.mp hj
      rw [show lo + 1 + j = lo + (j + 1) by omega, show n + 1 - 1 - (j + 1) = n - 1 - j by omega]
    have h1 := ih (lo + 1)
    have h2 : digitValue digits (m.byte lo) * base ^ n + base ^ n ≤ base * base ^ n := by
      rw [← Nat.succ_mul]
      exact Nat.mul_le_mul_right _ (hd _)
    rw [h, Nat.pow_succ, Nat.mul_comm (base ^ n)]
    omega

/-- The checksum field in the terms of the digit alphabet (R59). -/
theorem checksumField_terms (m : Memory) (e : Nat) (h : e + 2 < 128) :
    ∃ r o, checksumField m e = .ok (r, o) ∧ r.toNat = fieldValue m e ∧ (o = false ↔ FieldInRange m e) := by
  refine ⟨_, _, checksumField_eq m e h, ?_, ?_⟩
  · have h1 := digitValue_hex_lt (m.byte (e + 1))
    have h2 := digitValue_hex_lt (m.byte (e + 2))
    simp only [nibblePair, nib_eq, BitVec.toNat_ofNat, fieldValue]
    omega
  · simp [nib_eq, FieldInRange]

/-- The bytes of `RES` as a number (R11). -/
theorem packBytes_eq (b3 b2 b1 b0 : Byte) :
    packBytes b3 b2 b1 b0 =
      BitVec.ofNat 32 (b0.toNat + 2 ^ 8 * b1.toNat + 2 ^ 16 * b2.toNat + 2 ^ 24 * b3.toNat) := by
  apply BitVec.eq_of_toNat_eq
  have h0 := b0.isLt
  have h1 := b1.isLt
  have h2 := b2.isLt
  have h3 := b3.isLt
  unfold packBytes
  simp only [BitVec.toNat_append, BitVec.toNat_ofNat]
  rw [Nat.mod_eq_of_lt (by omega)]
  rw [← Nat.shiftLeft_add_eq_or_of_lt h0, ← Nat.shiftLeft_add_eq_or_of_lt h1, ← Nat.shiftLeft_add_eq_or_of_lt h2]
  simp only [Nat.shiftLeft_eq]
  omega

theorem zext32_eq (b : Byte) : zext32 b = BitVec.ofNat 32 b.toNat := by
  apply BitVec.eq_of_toNat_eq
  simp [zext32]

/-- The two ways an operation on the sentence's markers goes on. -/
theorem sentenceMarkers_terms (m : Memory) :
    (MarkersMissing m ∧ sentenceMarkers m = .error .markerNotFound) ∨
      ∃ s e, Markers m s e ∧ sentenceMarkers m = .ok (s, e) := by
  cases h : sentenceMarkers m with
  | error x =>
    obtain ⟨rfl, hm⟩ := (sentenceMarkers_iff_missing m x).mp h
    exact .inl ⟨hm, rfl⟩
  | ok se => exact .inr ⟨se.1, se.2, (sentenceMarkers_iff_markers m se.1 se.2).mp h, rfl⟩

/-- The three ways `VFY` ends. -/
theorem vfyResult_cases (m : Memory) :
    (MarkersMissing m ∧ vfyResult m = .error .markerNotFound) ∨
    (∃ s e, Markers m s e ∧ 128 ≤ e + 2 ∧ vfyResult m = .error .range) ∨
    ∃ s e r o, Markers m s e ∧ e + 2 < 128 ∧ r.toNat = fieldValue m e ∧ (o = false ↔ FieldInRange m e) ∧
      vfyResult m = .ok ⟨packBytes 0 0 r (xorfold m (s + 1) e), o, xorfold m (s + 1) e == r⟩ := by
  unfold vfyResult
  obtain ⟨hm, h⟩ | ⟨s, e, hm, h⟩ := sentenceMarkers_terms m
  · exact .inl ⟨hm, by rw [h]⟩
  · by_cases he : e + 2 < 128
    · obtain ⟨r, o, hf, hr, ho⟩ := checksumField_terms m e he
      exact .inr (.inr ⟨s, e, r, o, hm, he, hr, ho, by simp only [h, hf]⟩)
    · have hf := checksumField_cut_off m e (Nat.le_of_not_lt he)
      exact .inr (.inl ⟨s, e, hm, by omega, by simp only [h, hf]⟩)

/-- The three ways `CKF` ends. -/
theorem ckfResult_cases (m : Memory) :
    (Missing m 0x2A#8 0 ∧ ckfResult m = .error .markerNotFound) ∨
    (∃ e, IsFirst m 0x2A#8 0 e ∧ 128 ≤ e + 2 ∧ ckfResult m = .error .range) ∨
    ∃ e r o, IsFirst m 0x2A#8 0 e ∧ e + 2 < 128 ∧ r.toNat = fieldValue m e ∧ (o = false ↔ FieldInRange m e) ∧
      ckfResult m = .ok (.decoded (packBytes 0 0 (indexByte e) r) o) := by
  cases h : find m Config.checksumMarker 0 with
  | none =>
    refine .inl ⟨(find_iff_missing m _ _).mp h, ?_⟩
    unfold ckfResult
    rw [h]
  | some e =>
    have hm := (find_iff_isFirst m _ _ e).mp h
    by_cases he : e + 2 < 128
    · obtain ⟨r, o, hf, hr, ho⟩ := checksumField_terms m e he
      refine .inr (.inr ⟨e, r, o, hm, he, hr, ho, ?_⟩)
      unfold ckfResult
      rw [h]
      dsimp only
      rw [hf]
    · refine .inr (.inl ⟨e, hm, by omega, ?_⟩)
      unfold ckfResult
      rw [h]
      dsimp only
      rw [checksumField_cut_off m e (Nat.le_of_not_lt he)]

theorem complete_eq_ended (s : State) (v : Nat) (o m : Bool) :
    s.complete ⟨BitVec.ofNat 32 v, o, m⟩ = ended s v o m := rfl

theorem raise_eq_errored (s : State) (e : ErrorCode) : s.raise e = errored s e.code := rfl

end Sys2Proof.Machine
end

