-- ==== Sys2Proof/Laws/Decode.lean ====
section
/-! SUPPORT. The command word and its four bytes: a word is the command word of its fields, and decoding a command word is the
opcode map on its bytes. -/

namespace Sys2Proof

theorem commandWord_toNat (op a b c : Byte) :
    (commandWord op a b c).toNat = op.toNat * 2 ^ 24 + a.toNat * 2 ^ 16 + b.toNat * 2 ^ 8 + c.toNat := by
  have h : commandWord op a b c = _ := Machine.packBytes_eq op a b c
  have h0 := op.isLt
  have h1 := a.isLt
  have h2 := b.isLt
  have h3 := c.isLt
  rw [h, BitVec.toNat_ofNat, Nat.mod_eq_of_lt (by omega)]
  omega

/-- The word written as a number is the command word of its four bytes (R40). -/
theorem ofNat_eq_commandWord (op a b c : Nat) (ha : a < 256) (hb : b < 256) (hc : c < 256) :
    BitVec.ofNat 32 (op * 2 ^ 24 + a * 2 ^ 16 + b * 2 ^ 8 + c) =
      commandWord (BitVec.ofNat 8 op) (BitVec.ofNat 8 a) (BitVec.ofNat 8 b) (BitVec.ofNat 8 c) := by
  apply BitVec.eq_of_toNat_eq
  rw [commandWord_toNat]
  simp only [BitVec.toNat_ofNat]
  omega

theorem fields_commandWord (op a b c : Byte) :
    fieldOp (commandWord op a b c) = op ∧ fieldA (commandWord op a b c) = a ∧
      fieldB (commandWord op a b c) = b ∧ fieldC (commandWord op a b c) = c := by
  have h := commandWord_toNat op a b c
  have h0 := op.isLt
  have h1 := a.isLt
  have h2 := b.isLt
  have h3 := c.isLt
  refine ⟨?_, ?_, ?_, ?_⟩ <;> apply BitVec.eq_of_toNat_eq <;>
    simp only [fieldOp, fieldA, fieldB, fieldC, BitVec.extractLsb'_toNat, h, Nat.shiftRight_eq_div_pow] <;> omega

theorem commandWord_fields (w : Word) : commandWord (fieldOp w) (fieldA w) (fieldB w) (fieldC w) = w := by
  apply BitVec.eq_of_toNat_eq
  have h := w.isLt
  rw [commandWord_toNat]
  simp only [fieldOp, fieldA, fieldB, fieldC, BitVec.extractLsb'_toNat, Nat.shiftRight_eq_div_pow]
  omega

theorem decode_commandWord (op a b c : Byte) :
    decode (commandWord op a b c) = if c = 0 then decodeOp op a b else .error .reservedField := by
  obtain ⟨h1, h2, h3, h4⟩ := fields_commandWord op a b c
  unfold decode
  rw [h1, h2, h3, h4]

theorem usesAOnly_eq_ok (i j : Instr) (b : Byte) : usesAOnly i b = .ok j ↔ b = 0 ∧ i = j := by
  unfold usesAOnly
  split
  · next h => exact ⟨fun hi => ⟨h, Except.ok.inj hi⟩, fun hi => congrArg Except.ok hi.2⟩
  · next h => exact ⟨fun hi => (by cases hi), fun hi => absurd hi.1 h⟩

theorem usesNothing_eq_ok (i j : Instr) (a b : Byte) : usesNothing i a b = .ok j ↔ a = 0 ∧ b = 0 ∧ i = j := by
  unfold usesNothing
  split
  · next h => rw [usesAOnly_eq_ok]; exact ⟨fun hi => ⟨h, hi⟩, fun hi => hi.2⟩
  · next h => exact ⟨fun hi => (by cases hi), fun hi => absurd hi.1 h⟩

/-- To see that a word is an operation's, look at the opcode map on its bytes. -/
theorem hasWord_of_decodeOp (i : Instr) (op a b : Nat)
    (h : a < 256 → b < 256 → decodeOp (BitVec.ofNat 8 op) (BitVec.ofNat 8 a) (BitVec.ofNat 8 b) = .ok i) :
    Safety.HasWord i op a b := by
  intro ha hb
  have hw := ofNat_eq_commandWord op a b 0 ha hb (by decide)
  rw [Nat.add_zero] at hw
  rw [hw, decode_commandWord]
  exact h ha hb

/-- The mask of a row acts on each of the four bytes. -/
theorem commandWord_and (op a b c op' a' b' c' : Byte) :
    commandWord op a b c &&& commandWord op' a' b' c' =
      commandWord (op &&& op') (a &&& a') (b &&& b') (c &&& c') := by
  unfold commandWord
  rw [BitVec.and_append, BitVec.and_append, BitVec.and_append]

end Sys2Proof
end

