-- ==== Sys2Proof/Laws/PerInstr.lean ====
section
/-! SUPPORT. The family OpcodeRow: the word of every operation carries the fixed bits of its row of 30_encoding.md R42, whatever
its operands. -/

namespace Sys2Proof.Laws.OpcodeRow

/-- Some row of the table has the operation's mnemonic and matches its word. -/
def Statement (i : Instr) : Prop := ∃ r ∈ opcodeTable, r.mnemonic = i.mnemonic ∧ r.matches (encode i)

theorem word_matches (op a b ma mb : Byte) (ha : a &&& ma = 0) (hb : b &&& mb = 0) :
    commandWord op a b 0 &&& commandWord 0xFF ma mb 0xFF = commandWord op 0 0 0 := by
  rw [commandWord_and, ha, hb]
  congr 1
  · exact BitVec.and_allOnes

theorem stb (a : Nat) (v : Byte) : Statement (.stb a v) :=
  ⟨⟨"STB", 0x01000000, 0xFF0000FF⟩, by decide, rfl, word_matches 0x01 _ _ 0 0 (BitVec.and_zero) (BitVec.and_zero)⟩

theorem ldb (a : Nat) : Statement (.ldb a) :=
  ⟨⟨"LDB", 0x02000000, 0xFF00FFFF⟩, by decide, rfl, word_matches 0x02 _ 0 0 0xFF (BitVec.and_zero) (by decide)⟩

theorem clrb : Statement .clrb :=
  ⟨⟨"CLRB", 0x03000000, 0xFFFFFFFF⟩, by decide, rfl, word_matches 0x03 0 0 0xFF 0xFF (by decide) (by decide)⟩

theorem xorr (a b : Nat) : Statement (.xorr a b) :=
  ⟨⟨"XORR", 0x10000000, 0xFF0000FF⟩, by decide, rfl, word_matches 0x10 _ _ 0 0 (BitVec.and_zero) (BitVec.and_zero)⟩

theorem xors : Statement .xors :=
  ⟨⟨"XORS", 0x11000000, 0xFFFFFFFF⟩, by decide, rfl, word_matches 0x11 0 0 0xFF 0xFF (by decide) (by decide)⟩

theorem ckf : Statement .ckf :=
  ⟨⟨"CKF", 0x12000000, 0xFFFFFFFF⟩, by decide, rfl, word_matches 0x12 0 0 0xFF 0xFF (by decide) (by decide)⟩

theorem vfy : Statement .vfy :=
  ⟨⟨"VFY", 0x13000000, 0xFFFFFFFF⟩, by decide, rfl, word_matches 0x13 0 0 0xFF 0xFF (by decide) (by decide)⟩

theorem loc : Statement .loc :=
  ⟨⟨"LOC", 0x14000000, 0xFFFFFFFF⟩, by decide, rfl, word_matches 0x14 0 0 0xFF 0xFF (by decide) (by decide)⟩

theorem adds (a b : Nat) : Statement (.adds a b) :=
  ⟨⟨"ADDS", 0x20000000, 0xFF0000FF⟩, by decide, rfl, word_matches 0x20 _ _ 0 0 (BitVec.and_zero) (BitVec.and_zero)⟩

theorem addv (a b : Nat) : Statement (.addv a b) :=
  ⟨⟨"ADDV", 0x21000000, 0xFF0000FF⟩, by decide, rfl, word_matches 0x21 _ _ 0 0 (BitVec.and_zero) (BitVec.and_zero)⟩

theorem hexn (c : Byte) : Statement (.hexn c) :=
  ⟨⟨"HEXN", 0x30000000, 0xFF00FFFF⟩, by decide, rfl, word_matches 0x30 _ 0 0 0xFF (BitVec.and_zero) (by decide)⟩

theorem decn (c : Byte) : Statement (.decn c) :=
  ⟨⟨"DECN", 0x31000000, 0xFF00FFFF⟩, by decide, rfl, word_matches 0x31 _ 0 0 0xFF (BitVec.and_zero) (by decide)⟩

theorem pow10 (n : Nat) : Statement (.pow10 n) :=
  ⟨⟨"POW10", 0x32000000, 0xFF00FFFF⟩, by decide, rfl, word_matches 0x32 _ 0 0 0xFF (BitVec.and_zero) (by decide)⟩

theorem hexr (a b : Nat) : Statement (.hexr a b) :=
  ⟨⟨"HEXR", 0x33000000, 0xFF0000FF⟩, by decide, rfl, word_matches 0x33 _ _ 0 0 (BitVec.and_zero) (BitVec.and_zero)⟩

theorem decr (a b : Nat) : Statement (.decr a b) :=
  ⟨⟨"DECR", 0x34000000, 0xFF0000FF⟩, by decide, rfl, word_matches 0x34 _ _ 0 0 (BitVec.and_zero) (BitVec.and_zero)⟩

end Sys2Proof.Laws.OpcodeRow
end

