-- ==== Sys2Proof/Laws/Run.lean ====
section
/-! SUPPORT. Runs of the machine: one step at a time, two runs one after the other, and one command from the host's list. -/

namespace Sys2Proof.Machine

theorem run_zero (s : State) : Host.Core.run core 0 s = .next s := rfl

theorem run_succ (n : Nat) (s t : State) (h : step s = .next t) :
    Host.Core.run core (n + 1) s = Host.Core.run core n t := by
  have h' : core.step s = .next t := h
  simp only [Host.Core.run, h']

/-- Two runs, one after the other. -/
theorem run_add (n k : Nat) (s t : State) (h : Host.Core.run core n s = .next t) :
    Host.Core.run core (n + k) s = Host.Core.run core k t := by
  induction n generalizing s with
  | zero =>
    rw [run_zero] at h
    cases h
    rw [Nat.zero_add]
  | succ n ih =>
    rw [Nat.add_right_comm]
    simp only [Host.Core.run] at h ⊢
    split at h
    · exact ih _ h
    · cases h
    · cases h

/-- A step whose next access is a command word runs the command, or reports ILLEGAL. -/
theorem step_command (s : State) (w : Word) (rest : List Access) (h : s.host = Access.command w :: rest) :
    step s = runCommand w { s with host := rest } := by
  simp [step, serveNext, h, Access.command, serve, writeRegister]

/-- One step on a command of the host's list. -/
theorem run_one_command (s t : State) (i : Instr) (rest : List Access) (hi : decode (encode i) = .ok i)
    (h : s.host = Access.command (encode i) :: rest) (he : exec i { s with host := rest } = .next t) :
    Host.Core.run core 1 s = .next t := by
  have hs : step s = .next t := by
    rw [step_command s _ rest h, runCommand, hi]
    exact he
  rw [run_succ 0 s t hs, run_zero]

end Sys2Proof.Machine
end

