-- ==== Sys2Proof/Tests/Slice0.lean ====
section
/-! SUPPORT. The model's own tests: a word of the spec for every constructor, the checks of WellFormed, vectors of
95_test_vectors.md (the id stands beside each), and a witness for the hypotheses of every statement that has any. -/

namespace Sys2Proof.Tests

open Sys2Proof.Machine Sys2Proof.Safety

/-- The bytes of a text (00_scope.md section 7). -/
def text (cs : List Char) : List Byte := cs.map fun c => BitVec.ofNat 8 c.toNat

/-- A state whose buffer holds `bytes` from index `i` and zeros elsewhere, nothing queued. -/
def at' (i : Nat) (bytes : List Byte) : State :=
  { State.reset with buf := Memory.fill fun j => if i ≤ j then bytes.getD (j - i) 0 else 0 }

/-- A state whose 128 bytes are all `b`. -/
def all (b : Byte) : State := { State.reset with buf := Memory.fill fun _ => b }

/-- `RES` and `STATUS` as the host reads them after an operation. -/
def seen : Host.Outcome State Fault Refusal → Option (Word × Word)
  | .next t => some (t.res, t.status.word)
  | .fault _ => none
  | .refused _ => none

/-- The bytes at these indices after an operation. -/
def bytesAfter (idx : List Nat) : Host.Outcome State Fault Refusal → List Byte
  | .next t => idx.map t.buf.byte
  | .fault _ => []
  | .refused _ => []

/-- The state with these accesses queued. -/
def queued (l : List Access) (s : State) : State := { s with host := l }

/-! ### Decoding: the words of 30_encoding.md section 6 -/

theorem test_decode_stb : decode 0x01002400 = .ok (.stb 0 0x24) := by decide
theorem test_decode_ldb : decode 0x027F0000 = .ok (.ldb 127) := by decide
theorem test_decode_clrb : decode 0x03000000 = .ok .clrb := by decide
theorem test_decode_xorr : decode 0x10013D00 = .ok (.xorr 1 61) := by decide
theorem test_decode_xors : decode 0x11000000 = .ok .xors := by decide
theorem test_decode_ckf : decode 0x12000000 = .ok .ckf := by decide
theorem test_decode_vfy : decode 0x13000000 = .ok .vfy := by decide
theorem test_decode_loc : decode 0x14000000 = .ok .loc := by decide
theorem test_decode_adds : decode 0x20020C00 = .ok (.adds 2 12) := by decide
theorem test_decode_addv : decode 0x21020C00 = .ok (.addv 2 12) := by decide
theorem test_decode_hexn : decode 0x30410000 = .ok (.hexn 0x41) := by decide
theorem test_decode_decn : decode 0x31370000 = .ok (.decn 0x37) := by decide
theorem test_decode_pow10 : decode 0x32090000 = .ok (.pow10 9) := by decide
theorem test_decode_hexr : decode 0x33000800 = .ok (.hexr 0 8) := by decide
theorem test_decode_decr : decode 0x340E0200 = .ok (.decr 14 2) := by decide

/-- The words of section 6 from the encoder. -/
theorem test_encode :
    encode (.stb 0 0x24) = 0x01002400 ∧ encode (.ldb 127) = 0x027F0000 ∧ encode .clrb = 0x03000000 ∧
    encode (.xorr 1 61) = 0x10013D00 ∧ encode .xors = 0x11000000 ∧ encode .ckf = 0x12000000 ∧
    encode .vfy = 0x13000000 ∧ encode .loc = 0x14000000 ∧ encode (.adds 2 12) = 0x20020C00 ∧
    encode (.addv 2 12) = 0x21020C00 ∧ encode (.hexn 0x41) = 0x30410000 ∧ encode (.decn 0x37) = 0x31370000 ∧
    encode (.pow10 9) = 0x32090000 ∧ encode (.hexr 0 8) = 0x33000800 ∧ encode (.decr 14 2) = 0x340E0200 := by
  decide

/-- I1, I2, I8, I9, I10, I11, I14: which check refuses the word (R43). -/
theorem test_decode_illegal :
    decode 0x00000000 = .error .unknownOpcode ∧ decode 0xFFFFFFFF = .error .reservedField ∧
    decode 0x35000000 = .error .unknownOpcode ∧ decode 0x01000001 = .error .reservedField ∧
    decode 0x11010000 = .error .unusedA ∧ decode 0x11000100 = .error .unusedB ∧
    decode 0x02000500 = .error .unusedB ∧ decode 0x10808001 = .error .reservedField := by
  decide

theorem test_decodeTableWord : decodeTableWord 32 0x340E0200 = some (.decr 14 2) := by decide

/-- R46's forms. -/
theorem test_listing : listing .clrb = "CLRB" ∧ listing (.ldb 5) = "LDB 5" ∧ listing (.decr 14 2) = "DECR 14, 2" := by
  refine ⟨rfl, rfl, rfl⟩

/-- R47: one `STB` a character. -/
theorem test_puts :
    assemble [.command .clrb, .puts 0 (text ['$', '*'])] = [.clrb, .stb 0 0x24, .stb 1 0x2A] := by
  decide

/-- R46: a listing line with a character operand and a comment, `STB 0, '$' -- x`. -/
theorem test_assembleLine :
    assembleLine ['S', 'T', 'B', ' ', '0', ',', ' ', Char.ofNat 0x27, '$', Char.ofNat 0x27, ' ', '-', '-', ' ', 'x'] =
      some [.stb 0 0x24] ∧
    assembleLine ['D', 'E', 'C', 'N', ' ', '0', 'x', '3', '7'] = some [.decn 0x37] ∧
    assembleLine ['L', 'D', 'B', ' ', '2', '5', '6'] = none := by decide

/-- R47: `PUTS 126, "A\r\x2A"`. -/
theorem test_assembleLine_puts :
    assembleLine ['P', 'U', 'T', 'S', ' ', '1', '2', '6', ',', ' ', Char.ofNat 0x22, 'A', Char.ofNat 0x5C, 'r',
      Char.ofNat 0x5C, 'x', '2', 'A', Char.ofNat 0x22] = some [.stb 126 0x41, .stb 127 0x0D, .stb 128 0x2A] := by decide

/-! ### WellFormed: a term that each check refuses -/

theorem test_wf_stb : (Instr.stb 256 0).wellFormed = false := by decide
theorem test_wf_ldb : (Instr.ldb 256).wellFormed = false := by decide
theorem test_wf_xorr : (Instr.xorr 256 0).wellFormed = false ∧ (Instr.xorr 0 256).wellFormed = false := by decide
theorem test_wf_adds : (Instr.adds 256 0).wellFormed = false ∧ (Instr.adds 0 256).wellFormed = false := by decide
theorem test_wf_addv : (Instr.addv 256 0).wellFormed = false ∧ (Instr.addv 0 256).wellFormed = false := by decide
theorem test_wf_pow10 : (Instr.pow10 256).wellFormed = false := by decide
theorem test_wf_hexr : (Instr.hexr 256 0).wellFormed = false ∧ (Instr.hexr 0 256).wellFormed = false := by decide
theorem test_wf_decr : (Instr.decr 256 0).wellFormed = false ∧ (Instr.decr 0 256).wellFormed = false := by decide

/-! ### Operations: vectors of 95_test_vectors.md -/

/-- B3. -/
theorem test_stb_last : bytesAfter [126, 127] (exec (.stb 127 0xAA) (all 0)) = [0, 0xAA] := by decide
/-- B5. -/
theorem test_stb_range : seen (exec (.stb 128 0x01) (all 0)) = some (0, 2) := by decide
/-- B4. -/
theorem test_ldb_last : seen (exec (.ldb 127) (at' 127 [0xAA])) = some (0xAA, 0) := by decide
/-- B6. -/
theorem test_ldb_range : seen (exec (.ldb 128) (all 0xAA)) = some (0, 2) := by decide
/-- B9. -/
theorem test_clrb : bytesAfter [0, 63, 127] (exec .clrb (all 0x55)) = [0, 0, 0] := by decide
/-- X8, rows 3 and 6. -/
theorem test_xorr_one : seen (exec (.xorr 0 1) (all 0x55)) = some (0x55, 0) := by decide
theorem test_xorr_range : seen (exec (.xorr 128 1) (all 0x55)) = some (0, 2) := by decide
/-- X13. -/
theorem test_xors_first_marker : seen (exec .xors (at' 3 (text ['$', '$', 'A', '*', '4', '1']))) = some (0x65, 0) := by
  decide
/-- X18. -/
theorem test_xors_missing : seen (exec .xors (at' 127 [0x24])) = some (0, 1) := by decide
/-- X14. -/
theorem test_ckf_out_of_range :
    seen (exec .ckf (at' 0 (text ['$', 'A', '*', 'B', '*', '5', 'E']))) = some (0x02B0, 0x10) := by decide
/-- X19. -/
theorem test_ckf_cut_off : seen (exec .ckf (at' 127 [0x2A])) = some (0, 2) := by decide
/-- X9: the false match. -/
theorem test_vfy_false_match : seen (exec .vfy (at' 0 (text ['$', 'A', 'A', '*', 'z', 'z']))) = some (0, 0x30) := by
  decide
/-- X10. -/
theorem test_vfy_early_marker :
    seen (exec .vfy (at' 0 (text ['*', '1', '2', '$', 'A', 'B', '*', '0', '3']))) = some (0x0303, 0x20) := by decide
/-- X10. -/
theorem test_loc_early_marker :
    seen (exec .loc (at' 0 (text ['*', '1', '2', '$', 'A', 'B', '*', '0', '3']))) = some (0x0603, 0) := by decide
/-- X12. -/
theorem test_loc_missing : seen (exec .loc (at' 0 (text ['$', 'A', 'B', 'C']))) = some (0, 1) := by decide
/-- A1. -/
theorem test_adds_frame :
    seen (exec (.adds 2 12) (at' 0 [0xB5, 0x62, 6, 1, 8, 0, 0xF0, 0, 1, 1, 1, 1, 1, 1])) = some (0x3805, 0) := by
  decide
/-- A11: both wrap. -/
theorem test_adds_wrap : seen (exec (.adds 0 2) (all 0xFF)) = some (0xFDFE, 0) := by decide
/-- A3. -/
theorem test_addv_match :
    seen (exec (.addv 2 12) (at' 0 [0xB5, 0x62, 6, 1, 8, 0, 0xF0, 0, 1, 1, 1, 1, 1, 1, 5, 0x38])) =
      some (0x38053805, 0x20) := by decide
/-- A18, A19. -/
theorem test_addv_end :
    seen (exec (.addv 126 0) (all 0xFF)) = some (0xFFFF0000, 0) ∧ seen (exec (.addv 127 0) (all 0xFF)) = some (0, 2) := by
  decide
/-- F1. -/
theorem test_hexn : seen (exec (.hexn 0x46) (all 0)) = some (0xF, 0) := by decide
theorem test_hexn_lower : seen (exec (.hexn 0x66) (all 0)) = some (0, 0x10) := by decide
/-- F2. -/
theorem test_decn : seen (exec (.decn 0x39) (all 0)) = some (9, 0) := by decide
theorem test_decn_letter : seen (exec (.decn 0x41) (all 0)) = some (0, 0x10) := by decide
/-- F3. -/
theorem test_pow10 : seen (exec (.pow10 9) (all 0)) = some (0x3B9ACA00, 0) := by decide
theorem test_pow10_out : seen (exec (.pow10 10) (all 0)) = some (0, 0x10) := by decide
/-- F5. -/
theorem test_hexr_lower :
    seen (exec (.hexr 0 8) (at' 0 (text ['D', 'E', 'A', 'D', 'b', 'e', 'e', 'f']))) = some (0xDEAD0000, 0x10) := by decide
theorem test_hexr_nine : seen (exec (.hexr 0 9) (all 0x46)) = some (0, 2) := by decide
/-- F4. -/
theorem test_decr_letter : seen (exec (.decr 0 4) (at' 0 (text ['1', '2', 'A', '4']))) = some (1204, 0x10) := by decide
theorem test_decr_largest : seen (exec (.decr 0 9) (all 0x39)) = some (0x3B9AC9FF, 0) := by decide

/-! ### The port -/

/-- I13: a `CLRB` with `C = 1` clears nothing. -/
theorem test_step_illegal :
    seen (step (queued [Access.command 0x03000001] (all 0x55))) = some (0, 3) ∧
      bytesAfter [0, 127] (step (queued [Access.command 0x03000001] (all 0x55))) = [0x55, 0x55] := by decide

/-- R15, R16: `STATUS` reads with MATCH in bit 5; a write of `RES` is ignored. -/
theorem test_step_registers :
    (match step (queued [.read .bits32 0x04] { all 0 with status := ⟨0, false, true⟩ }) with
      | .next t => t.readData
      | .fault _ => none
      | .refused _ => none) = some 0x20 ∧
    seen (step (queued [.write .bits32 0x08 7] (all 0))) = some (0, 0) := by decide

/-- R26: an access outside the interface is refused. -/
theorem test_step_refused :
    step (queued [.read .bits8 0x04] (all 0)) = .refused (.accessOutsideInterface .bits8 0x04) ∧
      step (queued [.write .bits32 0x02 0] (all 0)) = .refused (.accessOutsideInterface .bits32 0x02) := ⟨rfl, rfl⟩

/-- The first command after reset runs (log 3). -/
theorem test_withFetchWord :
    seen (step (State.reset.withFetchWord 32 0x32030000)) = some (1000, 0) := by decide

/-- Every write of the clear loop of R53 (as single `MemWrite`s) and `CLRB`'s fill agree. -/
theorem test_clear_loop (s : State) (h : s.buf.wf = true) :
    (List.range 128).foldl (fun m i => m.write i 0) s.buf = Memory.fill fun _ => 0 := Memory.clear_loop_eq_fill s.buf h

/-! ### Witnesses: states and operands that meet the hypotheses of the statements -/

/-- `$A*41` at 0 (X3). -/
def sentence : State := at' 0 (text ['$', 'A', '*', '4', '1'])
/-- `$` at 0, `*` at 125, `00` after it (X15). -/
def lastField : State :=
  { State.reset with buf := Memory.fill fun j => if j = 0 then 0x24 else if j = 125 then 0x2A else if 125 < j then 0x30 else 0 }
/-- `$` at 0, `*` at 126 (X16). -/
def cutField : State :=
  { State.reset with buf := Memory.fill fun j => if j = 0 then 0x24 else if j = 126 then 0x2A else 0 }

theorem witness_CommandFields : (255 < 256) ∧ (0 < 256) := by decide
theorem witness_EncodedInstruction : (Instr.decr 255 255).wellFormed = true := by decide
theorem witness_DecodedWord : decode 0x34FFFF00 = .ok (.decr 255 255) := by decide
theorem witness_TableRow : ∃ r ∈ opcodeTable, r.matches 0x34FFFF00 := ⟨_, by decide, (by decide : (⟨"DECR", 0x34000000, 0xFF0000FF⟩ : OpcodeRow).matches 0x34FFFF00)⟩
theorem witness_illegal_reserved : IllegalByProcedure 0x01000001 := .inl (by decide)
theorem witness_illegal_opcode : IllegalByProcedure 0x35000000 := .inr (.inl (by decide))
theorem witness_illegal_unusedA : IllegalByProcedure 0x11010000 := .inr (.inr (.inl (by decide)))
theorem witness_illegal_unusedB : IllegalByProcedure 0x02000100 := .inr (.inr (.inr (by decide)))
theorem witness_IllegalWord : (queued [.write .bits32 0x00 0x35000000] (all 0)).host = [.write .bits32 0x00 0x35000000] ∧
    IllegalByProcedure 0x35000000 := ⟨rfl, witness_illegal_opcode⟩
theorem witness_StepRuns : (queued [.write .bits32 0x00 0x11000000] (all 0)).host = [.write .bits32 0x00 0x11000000] ∧
    decode 0x11000000 = .ok .xors := ⟨rfl, by decide⟩
theorem witness_FetchWord : 0x34FFFF00 < 2 ^ 32 ∧ decodeTableWord 32 0x34FFFF00 = some (.decr 255 255) := by decide
theorem witness_Idle : (all 0).host = [] := rfl
theorem witness_RegisterMap_reads : 0x00 % 4 = 0 ∧ 0x04 % 4 = 0 ∧ 0x08 % 4 = 0 ∧ 0x0C % 4 = 0 ∧
    (queued [.read .bits32 0x0C] (all 0)).host = [.read .bits32 0x0C] := ⟨rfl, rfl, rfl, rfl, rfl⟩
theorem witness_RegisterMap_writes : 0x04 % 4 = 0 ∧ (0x04 : Nat) ≠ 0x00 ∧
    (queued [.write .bits32 0x04 1] (all 0)).host = [.write .bits32 0x04 1] := ⟨rfl, by decide, rfl⟩
theorem witness_StatusWord : (queued [.read .bits32 0x04] (all 0)).host = [.read .bits32 0x04] := rfl
theorem witness_Refused : ¬(Width.bits16 = Width.bits32 ∧ 0x04 % 4 = 0) ∧ ¬(Width.bits32 = Width.bits32 ∧ 0x06 % 4 = 0) := by
  decide
theorem witness_PlatformReset : (queued [.reset] (all 0)).host = [.reset] := rfl
theorem witness_StepKeepsInvariant : Inv (queued [Access.command 0x13000000] (all 0)) ∧
    ∃ t, step (queued [Access.command 0x13000000] (all 0)) = .next t :=
  ⟨⟨Memory.wf_fill _, by decide, by decide, by decide⟩, _, rfl⟩
theorem witness_RunWithinInterface :
    HostKeepsInterface (queued [.write .bits32 0x00 0, .read .bits32 0x0C, .reset] (all 0)) := by
  intro a ha
  simp only [queued, List.mem_cons, List.not_mem_nil, or_false] at ha
  rcases ha with rfl | rfl | rfl
  · exact ⟨rfl, rfl⟩
  · exact ⟨rfl, rfl⟩
  · trivial
theorem witness_OutcomeIsFunction :
    (queued [.write .bits32 0x00 0x13000000] { all 0 with res := 7 }).buf =
      (queued [.write .bits32 0x00 0x13000000, .reset] { all 0 with status := ⟨3, false, false⟩ }).buf := rfl
theorem witness_ReadSet : ∀ j ∈ readSet .vfy sentence.buf, sentence.buf.byte j =
    (at' 0 (text ['$', 'A', '*', '4', '1', 'X'])).buf.byte j := by decide
theorem witness_ReadSet_differs : sentence.buf.byte 5 ≠ (at' 0 (text ['$', 'A', '*', '4', '1', 'X'])).buf.byte 5 := by
  decide
theorem witness_WithinWriteSet : sentence.buf.wf = true ∧ 1 ∉ writeSet (.stb 0 0) := ⟨Memory.wf_fill _, by decide⟩
theorem witness_ErrorWrites : ∃ t, step (queued [.write .bits32 0x00 0x13000000] (all 0)) = .next t ∧ t.status.err ≠ 0 :=
  ⟨_, rfl, by decide⟩
theorem witness_Stb : 127 < 128 ∧ 128 ≤ 128 ∧ (all 0x55).buf.wf = true ∧ (all 0x55).buf.byte 127 = 0x55 :=
  ⟨by decide, by decide, Memory.wf_fill _, by decide⟩
theorem witness_HasWord : 255 < 256 ∧ 255 < 256 := by decide
theorem witness_Clrb : Instr.vfy ∈ [Instr.xors, Instr.ckf, Instr.vfy, Instr.loc] ∧
    (all 0).buf = Memory.fill fun _ => 0 := ⟨by decide, rfl⟩
theorem witness_StoredByte : 127 < 128 ∧
    (queued [Access.command (encode (.stb 127 1)), Access.command (encode (.ldb 127)), .read .bits32 0x08] (all 0)).host =
      [Access.command (encode (.stb 127 1)), Access.command (encode (.ldb 127)), .read .bits32 0x08] := ⟨by decide, rfl⟩
theorem witness_Puts : 127 + (text ['A', 'B']).length ≤ 256 ∧ text ['A', 'B'] ≠ [] ∧
    (queued (program (puts 127 (text ['A', 'B'])) ++ []) (all 0)).host = program (puts 127 (text ['A', 'B'])) ++ [] :=
  ⟨by decide, by decide, rfl⟩
/-- Both sides of every slice bound (R84). -/
theorem witness_slices : 0 + 128 ≤ 128 ∧ 128 < 128 + 1 ∧ 0 + 126 + 2 ≤ 128 ∧ 128 < 127 + 0 + 2 ∧ 8 ≤ 8 ∧ 8 < 9 ∧
    9 ≤ 9 ∧ 9 < 10 ∧ 120 + 8 ≤ 128 ∧ 128 < 120 + 9 := by decide
theorem witness_Pow10 : 9 ≤ 9 ∧ 10 ≤ 10 := by decide
theorem witness_Markers : Markers sentence.buf 0 2 ∧ 2 + 2 < 128 :=
  ⟨(sentenceMarkers_iff_markers _ _ _).mp (by decide), by decide⟩
theorem witness_Markers_last : Markers lastField.buf 0 125 ∧ 125 + 2 < 128 :=
  ⟨(sentenceMarkers_iff_markers _ _ _).mp (by decide), by decide⟩
theorem witness_Markers_cut : Markers cutField.buf 0 126 ∧ 128 ≤ 126 + 2 :=
  ⟨(sentenceMarkers_iff_markers _ _ _).mp (by decide), by decide⟩
theorem witness_Missing_start : MarkersMissing (all 0).buf :=
  ((sentenceMarkers_iff_missing _ .markerNotFound).mp (by decide)).2
theorem witness_Missing_end : MarkersMissing (at' 127 [0x24]).buf :=
  .inr ⟨127, (find_iff_isFirst _ _ _ _).mp (by decide), (find_iff_missing _ _ _).mp (by decide)⟩
theorem witness_Ckf_last : IsFirst lastField.buf 0x2A 0 125 ∧ 125 + 2 < 128 :=
  ⟨(find_iff_isFirst _ _ _ _).mp (by decide), by decide⟩
theorem witness_Ckf_cut : IsFirst cutField.buf 0x2A 0 126 ∧ 128 ≤ 126 + 2 :=
  ⟨(find_iff_isFirst _ _ _ _).mp (by decide), by decide⟩
theorem witness_Ckf_missing : Missing (all 0).buf 0x2A 0 := (find_iff_missing _ _ _).mp (by decide)
/-- X10: a `*` before the first `$`, and both operations succeed. -/
theorem witness_CkfAndLoc :
    Markers (at' 0 (text ['*', '1', '2', '$', 'A', 'B', '*', '0', '3'])).buf 3 6 ∧
      IsFirst (at' 0 (text ['*', '1', '2', '$', 'A', 'B', '*', '0', '3'])).buf 0x2A 0 0 ∧ 0 + 2 < 128 :=
  ⟨(sentenceMarkers_iff_markers _ _ _).mp (by decide), (find_iff_isFirst _ _ _ _).mp (by decide), by decide⟩
theorem witness_Strict : Markers sentence.buf 0 2 ∧ 2 + 2 < 128 ∧ IsXor sentence.buf (0 + 1) (2 - (0 + 1)) 0x41 :=
  ⟨witness_Markers.1, by decide, (isXor_iff _ _ _ _).mpr (by decide)⟩
theorem witness_ChangedByte : Markers sentence.buf 0 2 ∧ 0 < 1 ∧ 1 < 2 ∧
    (∀ j, j ≠ 1 → (sentence.buf.write 1 0x42).byte j = sentence.buf.byte j) ∧
    (sentence.buf.write 1 0x42).byte 1 ≠ sentence.buf.byte 1 ∧ (sentence.buf.write 1 0x42).byte 1 ≠ 0x2A ∧
    ∃ t, exec .vfy sentence = .next t ∧ t.status.matched = true :=
  ⟨witness_Markers.1, by decide, by decide, fun _ h => Memory.byte_write_other _ _ h, by decide, by decide, _, rfl,
    by decide⟩
theorem witness_Sentence : (text ['A']).length ≤ 124 ∧ 0x2A ∉ text ['A'] ∧
    hexDigits[((text ['A']).foldl (· ^^^ ·) 0).toNat / 16]? = some 0x34 ∧
    hexDigits[((text ['A']).foldl (· ^^^ ·) 0).toNat % 16]? = some 0x31 := by decide
theorem witness_Sentence_host :
    (queued (program (.clrb :: puts 0 (0x24 :: text ['A'] ++ [0x2A, 0x34, 0x31]) ++ [.vfy]) ++ []) (all 0)).host =
      program (.clrb :: puts 0 (0x24 :: text ['A'] ++ [0x2A, 0x34, 0x31]) ++ [.vfy]) ++ [] := rfl

end Sys2Proof.Tests
end

section
/-! What one command does to a state, said once for all 15 operations and for every word: the buffer afterwards and the
answer are functions of the buffer alone (10_state.md R18), and only `State.finish` writes `RES` and `STATUS`. -/

namespace Sys2Proof.Machine

/-- The buffer after the operation: `STB` and `CLRB` are the only ones that write it (20_memory.md R22). -/
def bufAfter : Instr → Memory → Memory
  | .stb a v, m => if inBuffer a then m.write a v else m
  | .clrb, _ => Memory.fill fun _ => 0
  | _, m => m

/-- How the operation ends on this buffer: by a result or by an error. -/
def answer : Instr → Memory → Except ErrorCode Result
  | .stb a _, _ => if inBuffer a then .ok (.plain 0) else .error .range
  | .ldb a, m => ldbResult a m
  | .clrb, _ => .ok (.plain 0)
  | .xorr a b, m => xorrResult a b m
  | .xors, m => xorsResult m
  | .ckf, m => ckfResult m
  | .vfy, m => vfyResult m
  | .loc, m => locResult m
  | .adds a b, m => addsResult a b m
  | .addv a b, m => addvResult a b m
  | .hexn c, _ => decoderResult (nib c)
  | .decn c, _ => decoderResult (dig c)
  | .pow10 n, _ => decoderResult (pow10 n)
  | .hexr a b, m => hexrResult a b m
  | .decr a b, m => decrResult a b m

/-- Every operation completes: it replaces the buffer and ends through `State.finish`. -/
theorem exec_eq_finish (i : Instr) (s : State) :
    exec i s = .next ({ s with buf := bufAfter i s.buf }.finish (answer i s.buf)) := by
  cases i with
  | stb a v =>
    by_cases h : inBuffer a
    · simp only [exec, execStb, bufAfter, answer, if_pos h, State.finish_ok]
    · simp only [exec, execStb, bufAfter, answer, if_neg h, State.finish_error]
  | _ => rfl

/-- No operation takes the buffer out of its canonical form. -/
theorem bufAfter_wf (i : Instr) {m : Memory} (hm : m.wf = true) : (bufAfter i m).wf = true := by
  cases i with
  | stb a v =>
    by_cases h : inBuffer a
    · simpa only [bufAfter, if_pos h] using Memory.wf_write m a v hm h
    · simpa only [bufAfter, if_neg h] using hm
  | clrb => exact Memory.wf_fill _
  | _ => exact hm

/-- The buffer after a word written to `CMD`; an illegal word leaves it alone (60_exceptions.md R85). -/
def wordBuf (w : Word) (m : Memory) : Memory :=
  match decode w with
  | .ok i => bufAfter i m
  | .error _ => m

/-- How a word written to `CMD` ends on this buffer. -/
def wordAnswer (w : Word) (m : Memory) : Except ErrorCode Result :=
  match decode w with
  | .ok i => answer i m
  | .error _ => .error .illegal

/-- The state after a word written to `CMD`. -/
def State.afterWord (s : State) (w : Word) : State :=
  { s with buf := wordBuf w s.buf }.finish (wordAnswer w s.buf)

theorem wordBuf_wf (w : Word) {m : Memory} (hm : m.wf = true) : (wordBuf w m).wf = true := by
  unfold wordBuf
  cases decode w with
  | ok i => exact bufAfter_wf i hm
  | error _ => exact hm

/-- Every word written to `CMD`, legal or not, completes. -/
theorem runCommand_eq_afterWord (w : Word) (s : State) : runCommand w s = .next (s.afterWord w) := by
  unfold runCommand State.afterWord wordBuf wordAnswer
  cases decode w with
  | ok i => exact exec_eq_finish i s
  | error _ => rfl

@[simp] theorem State.afterWord_buf (s : State) (w : Word) : (s.afterWord w).buf = wordBuf w s.buf :=
  State.finish_buf _ _

@[simp] theorem State.afterWord_host (s : State) (w : Word) : (s.afterWord w).host = s.host :=
  (State.finish_frame _ _).2.1

/-- The words of equal buffers end with equal results and status, whatever else the states hold (10_state.md R18). -/
theorem State.afterWord_res_status {s s' : State} (w : Word) (h : s.buf = s'.buf) :
    (s.afterWord w).res = (s'.afterWord w).res ∧ (s.afterWord w).status = (s'.afterWord w).status := by
  unfold State.afterWord
  rw [h]
  exact State.finish_res_status _ _ _

end Sys2Proof.Machine
end

section
/-! What serving one access does, one equation for each kind of access, and what a step does with the host's list. -/

namespace Sys2Proof.Machine

open Sys2Proof.Safety

theorem serve_command (w : Word) (s : State) : serve (.write .bits32 cmdOffset w) s = .next (s.afterWord w) :=
  runCommand_eq_afterWord w s

theorem serve_write_ignored {off : Nat} (ha : off % 4 = 0) (h : off ≠ cmdOffset) (v : Word) (s : State) :
    serve (.write .bits32 off v) s = .next s := by
  simp [serve, writeRegister, ha, h]

theorem serve_read {off : Nat} (ha : off % 4 = 0) (s : State) :
    serve (.read .bits32 off) s = .next { s with readData := some (s.register off) } := by
  simp [serve, ha]

theorem serve_reset (s : State) : serve .reset s = .next s.platformReset := rfl

theorem serve_write_outside {width : Width} {off : Nat} (h : ¬ inInterface width off) (v : Word) (s : State) :
    serve (.write width off v) s = .refused (.accessOutsideInterface width off) := if_neg h

theorem serve_read_outside {width : Width} {off : Nat} (h : ¬ inInterface width off) (s : State) :
    serve (.read width off) s = .refused (.accessOutsideInterface width off) := if_neg h

/-- The four ways an access that is served leaves the state. -/
theorem serve_cases {a : Access} {s t : State} (h : serve a s = .next t) :
    (∃ w, a = .write .bits32 cmdOffset w ∧ t = s.afterWord w) ∨
    (∃ off v, off ≠ cmdOffset ∧ a = .write .bits32 off v ∧ t = s) ∨
    (∃ off, a = .read .bits32 off ∧ t = { s with readData := some (s.register off) }) ∨
    (a = .reset ∧ t = s.platformReset) := by
  cases a with
  | write width off v =>
    by_cases hin : inInterface width off
    · obtain ⟨rfl, ha⟩ := hin
      by_cases hc : off = cmdOffset
      · subst hc
        rw [serve_command] at h
        cases h
        exact .inl ⟨v, rfl, rfl⟩
      · rw [serve_write_ignored ha hc] at h
        cases h
        exact .inr (.inl ⟨off, v, hc, rfl, rfl⟩)
    · rw [serve_write_outside hin] at h
      cases h
  | read width off =>
    by_cases hin : inInterface width off
    · obtain ⟨rfl, ha⟩ := hin
      rw [serve_read ha] at h
      cases h
      exact .inr (.inr (.inl ⟨off, rfl, rfl⟩))
    · rw [serve_read_outside hin] at h
      cases h
  | reset =>
    rw [serve_reset] at h
    cases h
    exact .inr (.inr (.inr ⟨rfl, rfl⟩))

theorem step_idle {s : State} (h : s.host = []) : step s = .next s := by
  simp only [step, serveNext, h]

theorem step_eq_serve {s : State} {a : Access} {rest : List Access} (h : s.host = a :: rest) :
    step s = serve a { s with host := rest } := by
  simp only [step, serveNext, h]

/-- A step whose next access writes a word to `CMD` ends in the state after the word. -/
theorem step_afterWord {s : State} {w : Word} {rest : List Access} (h : s.host = .write .bits32 cmdOffset w :: rest) :
    step s = .next ({ s with host := rest }.afterWord w) := by
  rw [step_eq_serve h, serve_command]

/-- A step idles on an empty list, or takes the first access from the list and serves it. -/
theorem step_cases {s t : State} (h : step s = .next t) :
    (s.host = [] ∧ t = s) ∨ ∃ a rest, s.host = a :: rest ∧ serve a { s with host := rest } = .next t := by
  cases hh : s.host with
  | nil =>
    rw [step_idle hh] at h
    cases h
    exact .inl ⟨rfl, rfl⟩
  | cons a rest =>
    rw [step_eq_serve hh] at h
    exact .inr ⟨a, rest, rfl, h⟩

/-- A step within the interface has a next state, and the first pending access is gone. -/
theorem step_within_interface (s : State) (h : HostKeepsInterface s) :
    ∃ t, step s = .next t ∧ t.host = s.host.drop 1 := by
  cases hh : s.host with
  | nil => exact ⟨s, step_idle hh, hh⟩
  | cons a rest =>
    have ha := h a (by simp [hh])
    rw [step_eq_serve hh]
    cases a with
    | write width off v =>
      obtain ⟨rfl, hal⟩ := ha
      by_cases hc : off = cmdOffset
      · subst hc
        exact ⟨_, serve_command v _, State.afterWord_host _ v⟩
      · exact ⟨_, serve_write_ignored hal hc v _, rfl⟩
    | read width off =>
      obtain ⟨rfl, hal⟩ := ha
      exact ⟨_, serve_read hal _, rfl⟩
    | reset => exact ⟨_, serve_reset _, rfl⟩

/-- What is left of a list within the interface is within it. -/
theorem hostKeepsInterface_of_drop {s t : State} {n : Nat} (h : HostKeepsInterface s)
    (ht : t.host = s.host.drop n) : HostKeepsInterface t :=
  fun a ha => h a (List.mem_of_mem_drop (ht ▸ ha))

end Sys2Proof.Machine
end

section
/-! The invariant: it holds at reset, and every step keeps it. -/

namespace Sys2Proof.Machine

open Sys2Proof.Safety

/-- However an operation ends, what it writes to `RES` and `STATUS` meets the invariant; the buffer is its only premise. -/
theorem inv_finish (s : State) (o : Except ErrorCode Result) (hb : s.buf.wf = true) : Inv (s.finish o) := by
  cases o with
  | ok r => exact ⟨hb, by simp, by simp, by simp⟩
  | error e => exact ⟨hb, e.code_toNat_le, fun _ => rfl, fun _ => ⟨rfl, rfl⟩⟩

theorem inv_afterWord {s : State} (w : Word) (hi : Inv s) : Inv (s.afterWord w) :=
  inv_finish _ _ (wordBuf_wf w hi.buffer)

theorem inv_platformReset (s : State) : Inv s.platformReset :=
  ⟨Memory.wf_fill _, by simp, by simp, by simp⟩

/-- The invariant speaks of the block alone: the host's fields may be anything. -/
theorem inv_with_host {s : State} (hi : Inv s) (l : List Access) (d : Option Word) :
    Inv { s with host := l, readData := d } :=
  ⟨hi.buffer, hi.errCode, hi.errRes, hi.errFlags⟩

theorem serve_keeps_inv {a : Access} {s t : State} (hi : Inv s) (h : serve a s = .next t) : Inv t := by
  obtain ⟨w, -, rfl⟩ | ⟨_, _, -, -, rfl⟩ | ⟨off, -, rfl⟩ | ⟨-, rfl⟩ := serve_cases h
  · exact inv_afterWord w hi
  · exact hi
  · exact inv_with_host hi s.host _
  · exact inv_platformReset s

/-- Settles O16: a step idles or serves one access, and each of the four ways to serve one keeps the invariant. -/
theorem stepKeepsInvariant : Obligations.StepKeepsInvariant := by
  intro s t hi h
  obtain ⟨-, rfl⟩ | ⟨a, rest, -, hserve⟩ := step_cases h
  · exact hi
  · exact serve_keeps_inv (inv_with_host hi rest s.readData) hserve

/-- Settles O15: the reset state reports no error, and its buffer is a fill. -/
theorem resetMeetsInvariant : Obligations.ResetMeetsInvariant :=
  ⟨Memory.wf_fill _, by decide, by decide, by decide⟩

/-- Settles O14: the buffer at reset is in canonical form, which lists exactly the indices below 128. -/
theorem resetStateRegistersZero : Obligations.ResetStateRegistersZero :=
  ⟨rfl, rfl, Memory.read_isSome_iff _ (Memory.wf_fill _)⟩

end Sys2Proof.Machine
end

section
/-! The register port: the layout of the `STATUS` word (10_state.md R16), the register map (R15) and the platform's reset
(70_reset_and_hazards.md R95). -/

namespace Sys2Proof.Machine

/-- The `STATUS` word at reset (10_state.md R19). -/
theorem Status.word_zero : Status.word ⟨0, false, false⟩ = 0 := by decide

/-- Every bit of the `STATUS` word (10_state.md R16, R20). -/
theorem Status.getLsbD_word (st : Status) (k : Nat) :
    st.word.getLsbD k =
      if k < 4 then st.err.getLsbD k else if k = 4 then st.oor else if k = 5 then st.matched else false := by
  have happend : st.word.getLsbD k = if k < 4 then st.err.getLsbD k
      else if k - 4 < 1 then (BitVec.ofBool st.oor).getLsbD (k - 4)
      else if k - 4 - 1 < 1 then (BitVec.ofBool st.matched).getLsbD (k - 4 - 1)
      else (0#26).getLsbD (k - 4 - 1 - 1) := by
    rw [← BitVec.getLsbD_append, ← BitVec.getLsbD_append, ← BitVec.getLsbD_append]
    rfl
  rw [happend]
  split
  · rfl
  · by_cases h4 : k = 4
    · simp [h4]
    · by_cases h5 : k = 5
      · simp [h5]
      · rw [if_neg (by omega), if_neg (by omega), if_neg h4, if_neg h5, BitVec.getLsbD_zero]

/-- A step whose next access is an aligned read returns the register and leaves the block alone. -/
theorem step_read {s : State} {off : Nat} {rest : List Access} (ha : off % 4 = 0)
    (h : s.host = .read .bits32 off :: rest) :
    step s = .next { s with host := rest, readData := some (s.register off) } := by
  rw [step_eq_serve h, serve_read ha]
  rfl

/-- Settles O11: the read returns `Status.word`, whose bits are known one by one. -/
theorem statusWordLayout : Obligations.StatusWordLayout := by
  intro s rest h
  refine ⟨s.status.word, step_read rfl h, fun k hk => ?_, ?_, ?_, fun k hk => ?_⟩
  · rw [Status.getLsbD_word, if_pos hk]
  · exact s.status.getLsbD_word 4
  · exact s.status.getLsbD_word 5
  · rw [Status.getLsbD_word, if_neg (by omega), if_neg (by omega), if_neg (by omega)]

/-- Settles O13: the step is `State.platformReset`, whose buffer is a fill. -/
theorem platformResetClearsRegisters : Obligations.PlatformResetClearsRegisters := by
  intro s rest h
  exact ⟨_, (step_eq_serve h).trans (serve_reset _), Status.word_zero, rfl, Memory.wf_fill _, rfl, rfl⟩

/-- Settles O10: reads answer `State.register`, writes outside `CMD` are ignored. -/
theorem registerMapOfThePort : Obligations.RegisterMapOfThePort := by
  refine ⟨fun s off rest ha => ⟨fun h => step_read ha h, fun v h hc => ?_⟩, Status.word_zero, rfl⟩
  rw [step_eq_serve h, serve_write_ignored ha hc]

end Sys2Proof.Machine
end

section
/-! Commands as steps: the decoded operation runs next, a run within the interface never stops, and the outcome is a
function of the word and the buffer. -/

namespace Sys2Proof.Machine

/-- Settles O7: the write is a command, and running a legal command is executing what it decodes to. -/
theorem stepRunsDecodedInstruction : Obligations.StepRunsDecodedInstruction := by
  intro s w i rest h hw
  rw [step_command s w rest h, runCommand, hw]

theorem decode_tableWord {n w : Nat} {i : Instr} (h : decodeTableWord n w = some i) :
    decode (tableWord n w) = .ok i := by
  unfold decodeTableWord at h
  cases hd : decode (tableWord n w) with
  | ok j =>
    rw [hd] at h
    cases h
    rfl
  | error _ =>
    rw [hd] at h
    cases h

/-- Settles O8: the placed access is the head of the list, and taking it gives the state back. -/
theorem fetchWordIsRunNext : Obligations.FetchWordIsRunNext := by
  intro s w i _ h
  exact stepRunsDecodedInstruction (s.withFetchWord 32 w) (tableWord 32 w) i s.host rfl (decode_tableWord h)

/-- Settles O17, by induction on the number of steps. -/
theorem runWithinInterfaceNeverStops : Obligations.RunWithinInterfaceNeverStops := by
  intro n
  induction n with
  | zero => exact fun s _ => ⟨s, run_zero s, rfl⟩
  | succ n ih =>
    intro s h
    obtain ⟨t, hstep, ht⟩ := step_within_interface s h
    obtain ⟨u, hrun, hu⟩ := ih t (hostKeepsInterface_of_drop h ht)
    exact ⟨u, (run_succ n s t hstep).trans hrun, by rw [hu, ht, List.drop_drop, Nat.add_comm]⟩

/-- Settles O18: both steps end in the state after the word, of which `BUF`, `RES` and `STATUS` follow from the buffer. -/
theorem outcomeIsFunctionOfWordAndBuffer : Obligations.OutcomeIsFunctionOfWordAndBuffer := by
  intro s s' w rest rest' h h' hb
  obtain ⟨hres, hstatus⟩ :=
    State.afterWord_res_status (s := { s with host := rest }) (s' := { s' with host := rest' }) w hb
  refine ⟨_, _, step_afterWord h, step_afterWord h', ?_, hres, hstatus⟩
  simp only [State.afterWord_buf, hb]

end Sys2Proof.Machine
end

section
/-! Which flags an operation's answer can carry (10_state.md R17). -/

namespace Sys2Proof.Machine

open Sys2Proof.Safety

/-- A result of this answer has `OOR` only if `oor` and `MATCH` only if `matched`; an error has neither. -/
def FlagsWithin (oor matched : Bool) (o : Except ErrorCode Result) : Prop :=
  ∀ r, o = .ok r → (r.oor = true → oor = true) ∧ (r.matched = true → matched = true)

section

variable {oor matched : Bool}

theorem flagsWithin_error (e : ErrorCode) : FlagsWithin oor matched (.error e) := by
  intro r h
  cases h

theorem flagsWithin_ok {r : Result} (ho : r.oor = true → oor = true) (hm : r.matched = true → matched = true) :
    FlagsWithin oor matched (.ok r) := by
  intro r' h
  cases h
  exact ⟨ho, hm⟩

theorem flagsWithin_plain (v : Word) : FlagsWithin oor matched (.ok (.plain v)) :=
  flagsWithin_ok nofun nofun

theorem flagsWithin_decoder (d : Nat × Bool) : FlagsWithin true matched (decoderResult d) :=
  flagsWithin_ok (fun _ => rfl) nofun

theorem flagsWithin_ite {c : Prop} [Decidable c] {o o' : Except ErrorCode Result}
    (h : FlagsWithin oor matched o) (h' : FlagsWithin oor matched o') :
    FlagsWithin oor matched (if c then o else o') := by
  split
  · exact h
  · exact h'

theorem flagsWithin_xorsResult (m : Memory) : FlagsWithin oor matched (xorsResult m) := by
  unfold xorsResult
  cases sentenceMarkers m with
  | error e => exact flagsWithin_error e
  | ok se => exact flagsWithin_plain _

theorem flagsWithin_locResult (m : Memory) : FlagsWithin oor matched (locResult m) := by
  unfold locResult
  cases sentenceMarkers m with
  | error e => exact flagsWithin_error e
  | ok se => exact flagsWithin_plain _

theorem flagsWithin_ckfResult (m : Memory) : FlagsWithin true matched (ckfResult m) := by
  obtain ⟨-, h⟩ | ⟨e, -, -, h⟩ | ⟨e, r, o, -, -, -, -, h⟩ := ckfResult_cases m <;> rw [h]
  · exact flagsWithin_error _
  · exact flagsWithin_error _
  · exact flagsWithin_ok (fun _ => rfl) nofun

theorem flagsWithin_addvResult (a b : Nat) (m : Memory) : FlagsWithin oor true (addvResult a b m) :=
  flagsWithin_ite (flagsWithin_ok nofun fun _ => rfl) (flagsWithin_error _)

/-- The flags of `STATUS` after an answer are the answer's, and stand beside `ERR = 0`. -/
theorem finish_flags {o : Except ErrorCode Result} (s : State) (h : FlagsWithin oor matched o) :
    ((s.finish o).status.oor = true → oor = true ∧ (s.finish o).status.err = 0) ∧
      ((s.finish o).status.matched = true → matched = true ∧ (s.finish o).status.err = 0) := by
  cases o with
  | ok r => exact ⟨fun hr => ⟨(h r rfl).1 hr, rfl⟩, fun hr => ⟨(h r rfl).2 hr, rfl⟩⟩
  | error e => exact ⟨nofun, nofun⟩

end

/-- Each operation's answer carries only the flags tabulated for it. -/
theorem answer_flagsWithin (i : Instr) (m : Memory) : FlagsWithin (canSetOor i) (canSetMatch i) (answer i m) := by
  cases i with
  | stb a v => exact flagsWithin_ite (flagsWithin_plain _) (flagsWithin_error _)
  | ldb a => exact flagsWithin_ite (flagsWithin_plain _) (flagsWithin_error _)
  | clrb => exact flagsWithin_plain _
  | xorr a b => exact flagsWithin_ite (flagsWithin_plain _) (flagsWithin_error _)
  | xors => exact flagsWithin_xorsResult m
  | ckf => exact flagsWithin_ckfResult m
  | vfy => exact fun _ _ => ⟨fun _ => rfl, fun _ => rfl⟩
  | loc => exact flagsWithin_locResult m
  | adds a b => exact flagsWithin_ite (flagsWithin_plain _) (flagsWithin_error _)
  | addv a b => exact flagsWithin_addvResult a b m
  | hexn c => exact flagsWithin_decoder _
  | decn c => exact flagsWithin_decoder _
  | pow10 n => exact flagsWithin_decoder _
  | hexr a b =>
    exact flagsWithin_ite (flagsWithin_error _) (flagsWithin_ite (flagsWithin_decoder _) (flagsWithin_error _))
  | decr a b =>
    exact flagsWithin_ite (flagsWithin_error _) (flagsWithin_ite (flagsWithin_decoder _) (flagsWithin_error _))

/-- `State.finish` overwrites `RES` and `STATUS` whole: what they held before does not matter. -/
theorem finish_with_res_status (s : State) (o : Except ErrorCode Result) (r : Word) (st : Status) :
    { s with res := r, status := st }.finish o = s.finish o := by
  cases o <;> rfl

/-- Settles O24: the flags are those of the operation's answer, and `State.finish` overwrites `RES` and `STATUS`. -/
theorem flagsOnlyAsTabulated : Obligations.FlagsOnlyAsTabulated := by
  intro i s
  obtain ⟨hoor, hmatched⟩ := finish_flags { s with buf := bufAfter i s.buf } (answer_flagsWithin i s.buf)
  refine ⟨_, exec_eq_finish i s, hoor, hmatched, fun r st => ?_⟩
  rw [exec_eq_finish]
  exact congrArg Host.Outcome.next
    (finish_with_res_status { s with buf := bufAfter i s.buf } (answer i s.buf) r st)

end Sys2Proof.Machine
end

section
/-! Which accesses stop the machine: those outside the interface (20_memory.md R26; log 7). -/

namespace Sys2Proof.Machine

/-- An access that is refused is a read or a write outside the interface. -/
theorem not_inInterface_of_serve_refused {a : Access} {s : State} {r : Refusal} (h : serve a s = .refused r) :
    ∃ width off, ¬ inInterface width off ∧ (a = .read width off ∨ ∃ v, a = .write width off v) := by
  cases a with
  | write width off v =>
    refine ⟨width, off, fun ⟨hw, ha⟩ => ?_, .inr ⟨v, rfl⟩⟩
    subst hw
    by_cases hc : off = cmdOffset
    · rw [hc, serve_command] at h
      cases h
    · rw [serve_write_ignored ha hc] at h
      cases h
  | read width off =>
    refine ⟨width, off, fun ⟨hw, ha⟩ => ?_, .inl rfl⟩
    subst hw
    rw [serve_read ha] at h
    cases h
  | reset =>
    rw [serve_reset] at h
    cases h

/-- Settles O12: an idle step is no refusal, and any other step is the serving of one access. -/
theorem refusedExactlyOutsideInterface : Obligations.RefusedExactlyOutsideInterface := by
  intro s
  constructor
  · rintro ⟨r, h⟩
    cases hh : s.host with
    | nil =>
      rw [step_idle hh] at h
      cases h
    | cons a rest =>
      rw [step_eq_serve hh] at h
      obtain ⟨width, off, hout, rfl | ⟨v, rfl⟩⟩ := not_inInterface_of_serve_refused h
      · exact ⟨width, off, rest, hout, .inl rfl⟩
      · exact ⟨width, off, rest, hout, .inr ⟨v, rfl⟩⟩
  · rintro ⟨width, off, rest, hout, hh | ⟨v, hh⟩⟩
    · exact ⟨_, (step_eq_serve hh).trans (serve_read_outside hout _)⟩
    · exact ⟨_, (step_eq_serve hh).trans (serve_write_outside hout v _)⟩

end Sys2Proof.Machine
end

section
/-! What an operation reads: its answer is the same on two buffers that agree on its read set (20_memory.md R22, R27). -/

namespace Sys2Proof.Machine

/-- The two buffers hold the same byte at each of these indices that exists. -/
def AgreeOn (idx : List Nat) (m m' : Memory) : Prop := ∀ j ∈ idx, j < Config.bufCap → m.byte j = m'.byte j

/-- Agreement on the read set is agreement on the tabulated indices, cut at the buffer's end. -/
theorem agreeOn_readIndices {i : Instr} {m m' : Memory} (h : ∀ j ∈ readSet i m, m.byte j = m'.byte j) :
    AgreeOn (readIndices i m) m m' :=
  fun j hj hb => h j (List.mem_filter.mpr ⟨hj, decide_eq_true hb⟩)

/-- Agreement on the indices of a slice that fits gives equal slices. -/
theorem AgreeOn.slice_eq {m m' : Memory} {a n b : Nat} (h : AgreeOn (List.range' a n) m m') (hb : b ≤ n)
    (hf : sliceFits a b) : m.slice a (a + b) = m'.slice a (a + b) :=
  Memory.slice_congr m m' a b fun j hj => h (a + j) (List.mem_range'_1.mpr (by omega)) (by omega)

/-- Agreement on what a scan reads is agreement up to `k` bytes after the marker, and everywhere where none is found. -/
theorem AgreeOn.byte_eq_of_scanned {m m' : Memory} {marker : Option Nat} {k j : Nat}
    (h : AgreeOn (scannedTo marker k) m m') (hle : ∀ e, marker = some e → j ≤ e + k) (hj : j < Config.bufCap) :
    m.byte j = m'.byte j := by
  refine h j ?_ hj
  cases marker with
  | none => exact List.mem_range.mpr hj
  | some e => exact List.mem_range.mpr (Nat.lt_succ_of_le (hle e rfl))

/-! ### The operations on a slice of the operands -/

section

variable {m m' : Memory} {a b : Nat}

theorem ldbResult_congr (h : AgreeOn [a] m m') : ldbResult a m = ldbResult a m' := by
  unfold ldbResult
  split
  · next hf => rw [h a (List.mem_singleton.mpr rfl) hf]
  · rfl

theorem xorrResult_congr (h : AgreeOn (List.range' a b) m m') : xorrResult a b m = xorrResult a b m' := by
  unfold xorrResult xorfold
  split
  · next hf => rw [h.slice_eq (Nat.le_refl b) hf]
  · rfl

theorem addsResult_congr (h : AgreeOn (List.range' a b) m m') : addsResult a b m = addsResult a b m' := by
  unfold addsResult addfold
  split
  · next hf => rw [h.slice_eq (Nat.le_refl b) hf]
  · rfl

theorem addvResult_congr (h : AgreeOn (List.range' a (b + 2)) m m') : addvResult a b m = addvResult a b m' := by
  unfold addvResult addfold
  split
  · next hf =>
    have hA : m.byte (a + b) = m'.byte (a + b) :=
      h _ (List.mem_range'_1.mpr (by omega)) (by omega)
    have hB : m.byte (a + b + 1) = m'.byte (a + b + 1) :=
      h _ (List.mem_range'_1.mpr (by omega)) (by omega)
    rw [h.slice_eq (Nat.le_add_right b 2) (by omega), hA, hB]
  · rfl

theorem hexrResult_congr (h : AgreeOn (List.range' a b) m m') : hexrResult a b m = hexrResult a b m' := by
  unfold hexrResult
  split
  · rfl
  · split
    · next hf => rw [h.slice_eq (Nat.le_refl b) hf]
    · rfl

theorem decrResult_congr (h : AgreeOn (List.range' a b) m m') : decrResult a b m = decrResult a b m' := by
  unfold decrResult
  split
  · rfl
  · split
    · next hf => rw [h.slice_eq (Nat.le_refl b) hf]
    · rfl

end

/-! ### The operations that scan for the markers -/

section

variable {m m' : Memory} {k : Nat}

theorem sentenceEnd_eq_some {s e : Nat} (h : sentenceMarkers m = .ok (s, e)) : sentenceEnd m = some e := by
  unfold sentenceEnd
  rw [h]

theorem sentenceEnd_of_error {x : ErrorCode} (h : sentenceMarkers m = .error x) : sentenceEnd m = none := by
  unfold sentenceEnd
  rw [h]

/-- The search for a marker from an index, where no byte beyond the marker found is looked at. -/
theorem AgreeOn.find_eq {c : Byte} (h : AgreeOn (scannedTo (find m c 0) k) m m') : find m c 0 = find m' c 0 :=
  find_congr m m' c 0 fun _ hle _ hj => h.byte_eq_of_scanned (fun e he => Nat.le_add_right_of_le (hle e he)) hj

/-- Both markers are found, or missed, alike: the `$` lies before the `*`, and no byte after the `*` is looked at. -/
theorem AgreeOn.sentenceMarkers_eq (h : AgreeOn (scannedTo (sentenceEnd m) k) m m') :
    sentenceMarkers m = sentenceMarkers m' := by
  obtain ⟨hs, hm⟩ | ⟨s, hs, he, hm⟩ | ⟨s, e, hs, he, hm⟩ := sentenceMarkers_cases m
  · rw [sentenceEnd_of_error hm] at h
    have hs' := find_congr m m' Config.startMarker 0 fun j _ _ hj => h.byte_eq_of_scanned nofun hj
    rw [hm, sentenceMarkers_of_none m' (hs' ▸ hs)]
  · rw [sentenceEnd_of_error hm] at h
    have hs' := find_congr m m' Config.startMarker 0 fun j _ _ hj => h.byte_eq_of_scanned nofun hj
    have he' := find_congr m m' Config.checksumMarker (s + 1) fun j _ _ hj => h.byte_eq_of_scanned nofun hj
    rw [hm, sentenceMarkers_of_some_none m' (hs' ▸ hs) (he' ▸ he)]
  · rw [sentenceEnd_eq_some hm] at h
    have hlt := (sentenceMarkers_bounds m s e hm).1
    have hagree : ∀ j, j ≤ e → j < Config.bufCap → m.byte j = m'.byte j := fun j hje hj =>
      h.byte_eq_of_scanned (fun _ he => Option.some.inj he ▸ Nat.le_add_right_of_le hje) hj
    have hs' := find_congr m m' Config.startMarker 0 fun j hle _ hj =>
      hagree j (Nat.le_trans (hle s hs) (Nat.le_of_lt hlt)) hj
    have he' := find_congr m m' Config.checksumMarker (s + 1) fun j hle _ hj => hagree j (hle e he) hj
    rw [hm, sentenceMarkers_of_some_some m' (hs' ▸ hs) (he' ▸ he)]

/-- The bytes strictly between the markers fold alike. -/
theorem AgreeOn.xorfold_eq {s e : Nat} (h : AgreeOn (scannedTo (sentenceEnd m) k) m m')
    (hm : sentenceMarkers m = .ok (s, e)) : xorfold m (s + 1) e = xorfold m' (s + 1) e := by
  obtain ⟨hse, he⟩ := sentenceMarkers_bounds m s e hm
  rw [sentenceEnd_eq_some hm] at h
  obtain ⟨n, rfl⟩ := Nat.exists_eq_add_of_le hse
  refine congrArg xorBytes (Memory.slice_congr m m' _ n fun j hj => ?_)
  exact h.byte_eq_of_scanned (fun x hx => by cases hx; omega) (by omega)

/-- The checksum field is read up to two bytes after the `*`. -/
theorem AgreeOn.field_eq {e : Nat} (h : AgreeOn (scannedTo (some e) 2) m m') :
    checksumField m e = checksumField m' e := by
  by_cases he : e + 2 < Config.bufCap
  · have hagree : ∀ j, j ≤ e + 2 → m.byte j = m'.byte j := fun j hj =>
      h.byte_eq_of_scanned (fun _ he => Option.some.inj he ▸ hj) (Nat.lt_of_le_of_lt hj he)
    rw [checksumField_eq m e he, checksumField_eq m' e he, hagree (e + 1) (by omega), hagree (e + 2) (by omega)]
  · rw [checksumField_cut_off m e (Nat.le_of_not_lt he), checksumField_cut_off m' e (Nat.le_of_not_lt he)]

theorem xorsResult_congr (h : AgreeOn (scannedTo (sentenceEnd m) 0) m m') : xorsResult m = xorsResult m' := by
  unfold xorsResult
  rw [← h.sentenceMarkers_eq]
  cases hm : sentenceMarkers m with
  | error x => rfl
  | ok se => simp only [h.xorfold_eq hm]

theorem locResult_congr (h : AgreeOn (scannedTo (sentenceEnd m) 0) m m') : locResult m = locResult m' := by
  unfold locResult
  rw [← h.sentenceMarkers_eq]

theorem ckfResult_congr (h : AgreeOn (scannedTo (find m Config.checksumMarker 0) 2) m m') :
    ckfResult m = ckfResult m' := by
  unfold ckfResult
  rw [← h.find_eq]
  cases hm : find m Config.checksumMarker 0 with
  | none => rfl
  | some e =>
    rw [hm] at h
    simp only [h.field_eq]

theorem vfyResult_congr (h : AgreeOn (scannedTo (sentenceEnd m) 2) m m') : vfyResult m = vfyResult m' := by
  unfold vfyResult
  rw [← h.sentenceMarkers_eq]
  cases hm : sentenceMarkers m with
  | error x => rfl
  | ok se =>
    have hx := h.xorfold_eq hm
    rw [sentenceEnd_eq_some hm] at h
    simp only [hx, h.field_eq]

end

/-- Every operation answers alike on two buffers that agree on its read set. -/
theorem answer_congr (i : Instr) {m m' : Memory} (h : AgreeOn (readIndices i m) m m') : answer i m = answer i m' := by
  cases i with
  | stb a v => rfl
  | ldb a => exact ldbResult_congr h
  | clrb => rfl
  | xorr a b => exact xorrResult_congr h
  | xors => exact xorsResult_congr h
  | ckf => exact ckfResult_congr h
  | vfy => exact vfyResult_congr h
  | loc => exact locResult_congr h
  | adds a b => exact addsResult_congr h
  | addv a b => exact addvResult_congr h
  | hexn c => rfl
  | decn c => rfl
  | pow10 n => rfl
  | hexr a b => exact hexrResult_congr h
  | decr a b => exact decrResult_congr h

/-- Settles O19: `RES` and `STATUS` follow from the answer, and the answer from the bytes of the read set. -/
theorem outcomeDependsOnReadSetOnly : Obligations.OutcomeDependsOnReadSetOnly := by
  intro i s s' h
  refine ⟨_, _, exec_eq_finish i s, exec_eq_finish i s', ?_⟩
  rw [answer_congr i (agreeOn_readIndices h)]
  exact State.finish_res_status _ _ _

end Sys2Proof.Machine
end

section
/-! What an operation writes: bytes of its write set only (20_memory.md R22), none where it ends with an error
(60_exceptions.md R80), and the same again when it is repeated (20_memory.md R29). -/

namespace Sys2Proof.Machine

open Sys2Proof.Safety

/-- An operation that does not fit its operand to the buffer leaves the buffer alone. -/
theorem bufAfter_of_answer_error {i : Instr} {m : Memory} {e : ErrorCode} (h : answer i m = .error e) :
    bufAfter i m = m := by
  cases i with
  | stb a v =>
    by_cases ha : inBuffer a
    · simp only [answer, if_pos ha] at h
      cases h
    · simp only [bufAfter, if_neg ha]
  | clrb => cases h
  | _ => rfl

/-- Outside its write set an operation leaves every byte of a buffer in canonical form. -/
theorem byte_bufAfter_of_not_mem_writeSet {i : Instr} {m : Memory} {j : Nat} (hm : m.wf = true)
    (hj : j ∉ writeSet i) : (bufAfter i m).byte j = m.byte j := by
  cases i with
  | stb a v =>
    by_cases ha : inBuffer a
    · simp only [bufAfter, if_pos ha]
      exact Memory.byte_write_other m v fun hja => hj (List.mem_singleton.mpr hja)
    · simp only [bufAfter, if_neg ha]
  | clrb =>
    have hout : Config.bufCap ≤ j := Nat.le_of_not_lt fun hlt => hj (List.mem_range.mpr hlt)
    rw [Memory.byte_outside m hm hout]
    exact Memory.byte_outside _ (Memory.wf_fill _) hout
  | _ => rfl

/-- `ERR` is not 0 only after an error. -/
theorem answer_error_of_finish_err {s : State} {o : Except ErrorCode Result} (h : (s.finish o).status.err ≠ 0) :
    ∃ e, o = .error e := by
  cases o with
  | ok r => exact absurd rfl h
  | error e => exact ⟨e, rfl⟩

/-- Settles O20: an operation replaces the buffer by `bufAfter` and ends through `State.finish`, which writes `RES` and
`STATUS` only. -/
theorem everyInstructionCompletesWithinItsWriteSet : Obligations.EveryInstructionCompletesWithinItsWriteSet := by
  intro i s
  refine ⟨_, exec_eq_finish i s, (State.finish_frame _ _).2, fun hwf j hj => ?_, fun herr => ?_⟩
  · rw [State.finish_buf]
    exact byte_bufAfter_of_not_mem_writeSet hwf hj
  · obtain ⟨e, he⟩ := answer_error_of_finish_err herr
    rw [State.finish_buf]
    exact bufAfter_of_answer_error he

/-- An operation that writes the buffer reads none of it, so what it stored does not change its answer. -/
theorem answer_bufAfter (i : Instr) (m : Memory) : answer i (bufAfter i m) = answer i m := by
  cases i <;> rfl

/-- What an operation stores is the same the second time. -/
theorem bufAfter_bufAfter (i : Instr) (m : Memory) : bufAfter i (bufAfter i m) = bufAfter i m := by
  cases i with
  | stb a v =>
    by_cases ha : inBuffer a
    · simp only [bufAfter, if_pos ha, Memory.write_write]
    · simp only [bufAfter, if_neg ha]
  | _ => rfl

/-- Storing the same buffer and ending in the same way once more changes nothing: `RES` and `STATUS` are overwritten. -/
theorem State.finish_with_buf_again (s : State) (b : Memory) (o : Except ErrorCode Result) :
    { ({ s with buf := b }.finish o) with buf := b }.finish o = { s with buf := b }.finish o := by
  cases o <;> rfl

/-- Settles O21: the second execution stores the same buffer and gives the same answer. -/
theorem repeatedInstructionChangesNothing : Obligations.RepeatedInstructionChangesNothing := by
  intro i s
  refine ⟨_, exec_eq_finish i s, ?_⟩
  rw [exec_eq_finish, State.finish_buf, bufAfter_bufAfter, answer_bufAfter, State.finish_with_buf_again]

end Sys2Proof.Machine
end

section
/-! A byte that one command stores is what the next commands read (20_memory.md R25, R28). -/

namespace Sys2Proof.Machine

theorem exec_stb_inBuffer {a : Nat} (h : inBuffer a) (v : Byte) (s : State) :
    exec (.stb a v) s = .next ({ s with buf := s.buf.write a v }.complete (.plain 0)) :=
  congrArg Host.Outcome.next (if_pos h)

theorem exec_ldb_inBuffer {a : Nat} (h : inBuffer a) (s : State) :
    exec (.ldb a) s = .next (s.complete (.plain (zext32 (s.buf.byte a)))) :=
  congrArg (fun o => Host.Outcome.next (s.finish o)) (if_pos h)

theorem exec_adds_fits {a b : Nat} (h : sliceFits a b) (s : State) :
    exec (.adds a b) s = .next (s.complete
      (.plain (packBytes 0 0 (addfold s.buf a (a + b)).2 (addfold s.buf a (a + b)).1))) :=
  congrArg (fun o => Host.Outcome.next (s.finish o)) (if_pos h)

/-- An operand that fits its field comes back from the field. -/
theorem toNat_ofNat_of_fitsField {n : Nat} (h : fitsField n) : (BitVec.ofNat 8 n).toNat = n :=
  BitVec.toNat_ofNat n 8 ▸ Nat.mod_eq_of_lt h

theorem decode_encode_stb {a : Nat} (h : fitsField a) (v : Byte) : decode (encode (.stb a v)) = .ok (.stb a v) := by
  calc decode (encode (.stb a v)) = .ok (.stb (BitVec.ofNat 8 a).toNat v) := decode_commandWord _ _ _ _
    _ = .ok (.stb a v) := by rw [toNat_ofNat_of_fitsField h]

theorem decode_encode_ldb {a : Nat} (h : fitsField a) : decode (encode (.ldb a)) = .ok (.ldb a) := by
  calc decode (encode (.ldb a)) = .ok (.ldb (BitVec.ofNat 8 a).toNat) := decode_commandWord _ _ _ _
    _ = .ok (.ldb a) := by rw [toNat_ofNat_of_fitsField h]

/-- Settles O28: the three accesses are three steps, and `LDB` reads the byte `STB` wrote. -/
theorem storedByteIsSeenByTheNextCommand : Obligations.StoredByteIsSeenByTheNextCommand := by
  intro s a v rest ha hh
  have hfits : fitsField a := Nat.lt_trans ha (by decide)
  have hstb := run_one_command s _ _ _ (decode_encode_stb hfits v) hh (exec_stb_inBuffer ha v _)
  have hrun :=
    calc Host.Core.run core 3 s = Host.Core.run core 2 _ := run_add 1 2 _ _ hstb
      _ = Host.Core.run core 1 _ :=
        run_add 1 1 _ _ (run_one_command _ _ _ _ (decode_encode_ldb hfits) rfl (exec_ldb_inBuffer ha _))
      _ = .next _ := run_succ 0 _ _ (step_read rfl rfl)
  refine ⟨_, hrun, ?_, rfl, Memory.byte_write_same s.buf a v, fun j hj => Memory.byte_write_other s.buf v hj⟩
  exact congrArg (fun b => some (zext32 b)) (Memory.byte_write_same s.buf a v)

/-- The two low bytes of a packed result (10_state.md R11). -/
theorem packBytes_low_bytes (b3 b2 b1 b0 : Byte) :
    (packBytes b3 b2 b1 b0).extractLsb' 0 8 = b0 ∧ (packBytes b3 b2 b1 b0).extractLsb' 8 8 = b1 := by
  obtain ⟨-, -, hB, hC⟩ := fields_commandWord b3 b2 b1 b0
  exact ⟨hC, hB⟩

/-- The low half of a packed result is its two low bytes. -/
theorem packBytes_low_half (b3 b2 b1 b0 : Byte) : (packBytes b3 b2 b1 b0).extractLsb' 0 16 = b1 ++ b0 := by
  unfold packBytes
  rw [BitVec.append_assoc]
  exact BitVec.extractLsb'_append_eq_right

/-- Where the checksum pair of the slice stands after it, `ADDV` computes it again and reports a match (R64). -/
theorem exec_addv_of_stored_pair {a b : Nat} {s : State} {ck : Byte × Byte} (hf : sliceFits a (b + 2))
    (hck : addfold s.buf a (a + b) = ck) (hA : s.buf.byte (a + b) = ck.1) (hB : s.buf.byte (a + b + 1) = ck.2) :
    exec (.addv a b) s = .next (s.complete ⟨packBytes ck.2 ck.1 ck.2 ck.1, false, true⟩) := by
  have hres : addvResult a b s.buf = .ok ⟨packBytes ck.2 ck.1 ck.2 ck.1, false, true⟩ := by
    simp only [addvResult, if_pos hf, hck, hA, hB, beq_self_eq_true, Bool.and_self]
  simp only [exec, execAddv, hres, State.finish_ok]

/-- Bytes written behind a slice do not change its additive pair. -/
theorem addfold_write_behind (m : Memory) {lo n i : Nat} (h : lo + n ≤ i) (v : Byte) :
    addfold (m.write i v) lo (lo + n) = addfold m lo (lo + n) :=
  congrArg addBytes (Memory.slice_congr _ m lo n fun _ _ => Memory.byte_write_other m v (by omega))

/-- Settles O45: the two stores lie behind the slice, so `ADDV` computes the pair of `ADDS` and finds it stored. -/
theorem appendedAdditiveChecksumVerifies : Obligations.AppendedAdditiveChecksumVerifies := by
  intro a b s hf
  have hslice : sliceFits a b := show a + b ≤ 128 by omega
  have hinA : inBuffer (a + b) := show a + b < 128 by omega
  have hinB : inBuffer (a + b + 1) := show a + b + 1 < 128 by omega
  obtain ⟨hlow, hhigh⟩ := packBytes_low_bytes 0 0 (addfold s.buf a (a + b)).2 (addfold s.buf a (a + b)).1
  refine ⟨_, _, _, _, exec_adds_fits hslice s, exec_stb_inBuffer hinA _ _, exec_stb_inBuffer hinB _ _,
    exec_addv_of_stored_pair (a := a) (b := b) (ck := addfold s.buf a (a + b)) hf ?_ ?_ ?_, rfl, ?_⟩
  · exact (addfold_write_behind _ (Nat.le_succ _) _).trans (addfold_write_behind _ (Nat.le_refl _) _)
  · exact (Memory.byte_write_other _ _ (Nat.ne_of_lt (Nat.lt_succ_self _))).trans
      ((Memory.byte_write_same _ _ _).trans hlow)
  · exact (Memory.byte_write_same _ _ _).trans hhigh
  · exact (packBytes_low_half _ _ _ _).trans (packBytes_low_half _ _ _ _).symm

end Sys2Proof.Machine
end

section
/-! The bytes of an operation's command word, and decoding as an inversion: a word decodes to an operation exactly when it is
the word of that operation and the operation is well formed (30_encoding.md R40 to R43). -/

namespace Sys2Proof

/-- The `op` byte of the operation's word (R42). -/
def Instr.opcode : Instr → Byte
  | .stb _ _ => 0x01
  | .ldb _ => 0x02
  | .clrb => 0x03
  | .xorr _ _ => 0x10
  | .xors => 0x11
  | .ckf => 0x12
  | .vfy => 0x13
  | .loc => 0x14
  | .adds _ _ => 0x20
  | .addv _ _ => 0x21
  | .hexn _ => 0x30
  | .decn _ => 0x31
  | .pow10 _ => 0x32
  | .hexr _ _ => 0x33
  | .decr _ _ => 0x34

/-- The `A` byte of the operation's word, 0 where it does not use `A` (R41). -/
def Instr.aByte : Instr → Byte
  | .stb a _ | .ldb a | .xorr a _ | .adds a _ | .addv a _ | .pow10 a | .hexr a _ | .decr a _ => BitVec.ofNat 8 a
  | .hexn c | .decn c => c
  | .clrb | .xors | .ckf | .vfy | .loc => 0

/-- The `B` byte of the operation's word, 0 where it does not use `B` (R41). -/
def Instr.bByte : Instr → Byte
  | .stb _ v => v
  | .xorr _ b | .adds _ b | .addv _ b | .hexr _ b | .decr _ b => BitVec.ofNat 8 b
  | .ldb _ | .clrb | .xors | .ckf | .vfy | .loc | .hexn _ | .decn _ | .pow10 _ => 0

theorem encode_eq_commandWord (i : Instr) : encode i = commandWord i.opcode i.aByte i.bByte 0 := by
  cases i <;> rfl

/-- The opcode map inverted: an answer fixes the three bytes, and every well-formed operation is the answer to its own. -/
theorem decodeOp_eq_ok_iff (op a b : Byte) (i : Instr) :
    decodeOp op a b = .ok i ↔ op = i.opcode ∧ a = i.aByte ∧ b = i.bByte ∧ i.wellFormed = true := by
  constructor
  · intro h
    have ha : a.toNat < 256 := a.isLt
    have hb : b.toNat < 256 := b.isLt
    unfold decodeOp at h
    split at h
    case h_16 => cases h
    case h_1 | h_4 | h_9 | h_10 | h_14 | h_15 =>
      cases h
      simp [Instr.opcode, Instr.aByte, Instr.bByte, Instr.wellFormed, ha, hb]
    case h_2 | h_11 | h_12 | h_13 =>
      obtain ⟨rfl, rfl⟩ := (usesAOnly_eq_ok _ _ _).mp h
      simp [Instr.opcode, Instr.aByte, Instr.bByte, Instr.wellFormed, ha]
    case h_3 | h_5 | h_6 | h_7 | h_8 =>
      obtain ⟨rfl, rfl, rfl⟩ := (usesNothing_eq_ok _ _ _ _).mp h
      exact ⟨rfl, rfl, rfl, rfl⟩
  · rintro ⟨rfl, rfl, rfl, hi⟩
    cases i with
    | clrb | xors | ckf | vfy | loc | hexn c | decn c => rfl
    | stb a v | ldb a | pow10 a =>
      have ha : fitsField a := by simpa [Instr.wellFormed] using hi
      simp [decodeOp, usesAOnly, Instr.opcode, Instr.aByte, Instr.bByte, Nat.mod_eq_of_lt ha]
    | xorr a b | adds a b | addv a b | hexr a b | decr a b =>
      obtain ⟨ha, hb⟩ : fitsField a ∧ fitsField b := by simpa [Instr.wellFormed] using hi
      simp [decodeOp, Instr.opcode, Instr.aByte, Instr.bByte, Nat.mod_eq_of_lt ha, Nat.mod_eq_of_lt hb]

theorem decode_eq_ok_iff_fields (w : Word) (i : Instr) :
    decode w = .ok i ↔ fieldC w = 0 ∧ decodeOp (fieldOp w) (fieldA w) (fieldB w) = .ok i := by
  unfold decode
  split
  · next hc => exact ⟨fun h => ⟨hc, h⟩, fun h => h.2⟩
  · next hc => exact ⟨fun h => (by cases h), fun h => absurd h.1 hc⟩

/-- Encoding and decoding are inverse to each other on the well-formed operations. -/
theorem decode_eq_ok_iff (w : Word) (i : Instr) : decode w = .ok i ↔ encode i = w ∧ i.wellFormed = true := by
  rw [decode_eq_ok_iff_fields, decodeOp_eq_ok_iff, encode_eq_commandWord]
  constructor
  · rintro ⟨hc, hop, ha, hb, hi⟩
    exact ⟨by rw [← hop, ← ha, ← hb, ← hc, commandWord_fields], hi⟩
  · rintro ⟨rfl, hi⟩
    obtain ⟨hop, ha, hb, hc⟩ := fields_commandWord i.opcode i.aByte i.bByte 0
    exact ⟨hc, hop, ha, hb, hi⟩

/-- Settles O3: one direction of the inversion. -/
theorem encodedInstructionDecodesBack : Obligations.EncodedInstructionDecodesBack :=
  fun i hi => (decode_eq_ok_iff (encode i) i).mpr ⟨rfl, hi⟩

/-- Settles O4: the other direction of the inversion. -/
theorem decodedWordEncodesBack : Obligations.DecodedWordEncodesBack :=
  fun w i h => (decode_eq_ok_iff w i).mp h

/-- Settles O2: the word is the command word of its four bytes. -/
theorem commandFieldsAreTheWordsBytes : Obligations.CommandFieldsAreTheWordsBytes := by
  intro op a b c hop ha hb hc
  obtain ⟨h1, h2, h3, h4⟩ :=
    fields_commandWord (BitVec.ofNat 8 op) (BitVec.ofNat 8 a) (BitVec.ofNat 8 b) (BitVec.ofNat 8 c)
  rw [ofNat_eq_commandWord op a b c ha hb hc, h1, h2, h3, h4]
  exact ⟨Machine.toNat_ofNat_of_fitsField hop, Machine.toNat_ofNat_of_fitsField ha,
    Machine.toNat_ofNat_of_fitsField hb, Machine.toNat_ofNat_of_fitsField hc⟩

end Sys2Proof
end

section
/-! Which words are legal, said three ways: the decoding procedure answers an operation, none of the procedure's checks
fails, a row of the opcode map matches (30_encoding.md R42, R43). -/

namespace Sys2Proof

open Sys2Proof.Machine Sys2Proof.Safety

theorem commandWord_inj {op a b c op' a' b' c' : Byte} :
    commandWord op a b c = commandWord op' a' b' c' ↔ op = op' ∧ a = a' ∧ b = b' ∧ c = c' := by
  constructor
  · intro h
    obtain ⟨hop, ha, hb, hc⟩ := fields_commandWord op a b c
    obtain ⟨hop', ha', hb', hc'⟩ := fields_commandWord op' a' b' c'
    rw [h] at hop ha hb hc
    exact ⟨hop.symm.trans hop', ha.symm.trans ha', hb.symm.trans hb', hc.symm.trans hc'⟩
  · rintro ⟨rfl, rfl, rfl, rfl⟩
    rfl

theorem opcode_mem_opcodes (i : Instr) : i.opcode ∈ opcodes := by
  cases i <;> simp [Instr.opcode, opcodes]

theorem aByte_eq_zero {i : Instr} (h : i.opcode ∈ opcodesWithoutA) : i.aByte = 0 := by
  cases i with
  | clrb | xors | ckf | vfy | loc => rfl
  | _ => simp [Instr.opcode, opcodesWithoutA] at h

theorem bByte_eq_zero {i : Instr} (h : i.opcode ∈ opcodesWithoutB) : i.bByte = 0 := by
  cases i with
  | stb _ _ | xorr _ _ | adds _ _ | addv _ _ | hexr _ _ | decr _ _ =>
    simp [Instr.opcode, opcodesWithoutB, opcodesWithoutA] at h
  | _ => rfl

/-- The opcode map answers exactly on the assigned opcodes with the unused operands 0. -/
theorem exists_decodeOp_eq_ok_iff (op a b : Byte) :
    (∃ i, decodeOp op a b = .ok i) ↔
      op ∈ opcodes ∧ (op ∈ opcodesWithoutA → a = 0) ∧ (op ∈ opcodesWithoutB → b = 0) := by
  constructor
  · rintro ⟨i, h⟩
    obtain ⟨rfl, rfl, rfl, -⟩ := (decodeOp_eq_ok_iff op a b i).mp h
    exact ⟨opcode_mem_opcodes i, aByte_eq_zero, bByte_eq_zero⟩
  · rintro ⟨hop, ha, hb⟩
    unfold decodeOp
    split
    -- The default row is left for no assigned opcode.
    case h_16 => simp_all [opcodes]
    case h_1 | h_4 | h_9 | h_10 | h_14 | h_15 => exact ⟨_, rfl⟩
    case h_2 | h_11 | h_12 | h_13 =>
      rw [hb (by decide)]
      exact ⟨_, rfl⟩
    case h_3 | h_5 | h_6 | h_7 | h_8 =>
      rw [ha (by decide), hb (by decide)]
      exact ⟨_, rfl⟩

/-- The word passes the four checks of the decoding procedure (R43). -/
def PassesChecks (w : Word) : Prop :=
  fieldOp w ∈ opcodes ∧ (fieldOp w ∈ opcodesWithoutA → fieldA w = 0) ∧
    (fieldOp w ∈ opcodesWithoutB → fieldB w = 0) ∧ fieldC w = 0

theorem exists_decode_eq_ok_iff (w : Word) : (∃ i, decode w = .ok i) ↔ PassesChecks w := by
  simp only [decode_eq_ok_iff_fields, exists_and_left, exists_decodeOp_eq_ok_iff, PassesChecks]
  tauto

theorem exists_decode_eq_error_iff (w : Word) : (∃ e, decode w = .error e) ↔ IllegalByProcedure w := by
  have hnot : (∃ e, decode w = .error e) ↔ ¬ ∃ i, decode w = .ok i := by
    cases decode w <;> simp
  rw [hnot, exists_decode_eq_ok_iff, PassesChecks, IllegalByProcedure]
  tauto

theorem and_ones (x : Byte) : x &&& 0xFF = x := BitVec.and_allOnes

/-- The mask byte of an operand: a row pins it to 0 exactly where the opcode is among those that do not use it. -/
def operandMask (unused : List Byte) (op : Byte) : Byte := if op ∈ unused then 0xFF else 0

theorem and_operandMask_eq_zero (unused : List Byte) (op x : Byte) :
    x &&& operandMask unused op = 0 ↔ (op ∈ unused → x = 0) := by
  unfold operandMask
  split
  · next h =>
    rw [and_ones]
    exact ⟨fun hx _ => hx, fun hx => hx h⟩
  · next h => exact ⟨fun _ h' => absurd h' h, fun _ => BitVec.and_zero⟩

/-- The opcode map lists the assigned opcodes in their order. -/
theorem opcodeTable_opcodes : opcodeTable.map (fun r => fieldOp r.matchBits) = opcodes := by decide

/-- How every row is made: it pins the opcode, `C` and the unused operands. -/
theorem opcodeTable_bytes : ∀ r ∈ opcodeTable,
    r.matchBits = commandWord (fieldOp r.matchBits) 0 0 0 ∧
      r.mask = commandWord 0xFF (operandMask opcodesWithoutA (fieldOp r.matchBits))
        (operandMask opcodesWithoutB (fieldOp r.matchBits)) 0xFF := by decide

/-- A row matches exactly the words with its opcode that pass the checks. -/
theorem matches_iff {r : OpcodeRow} (hr : r ∈ opcodeTable) (w : Word) :
    r.matches w ↔ fieldOp r.matchBits = fieldOp w ∧ PassesChecks w := by
  obtain ⟨hbits, hmask⟩ := opcodeTable_bytes r hr
  have hop : fieldOp r.matchBits ∈ opcodes := opcodeTable_opcodes ▸ List.mem_map_of_mem hr
  have hmasked : w &&& r.mask = commandWord (fieldOp w)
      (fieldA w &&& operandMask opcodesWithoutA (fieldOp r.matchBits))
      (fieldB w &&& operandMask opcodesWithoutB (fieldOp r.matchBits)) (fieldC w) := by
    conv_lhs => rw [← commandWord_fields w, hmask, commandWord_and, and_ones, and_ones]
  rw [OpcodeRow.matches, hmasked, hbits, commandWord_inj, and_operandMask_eq_zero, and_operandMask_eq_zero,
    ← hbits, PassesChecks]
  constructor
  · rintro ⟨hw, ha, hb, hc⟩
    exact ⟨hw.symm, hw ▸ hop, hw ▸ ha, hw ▸ hb, hc⟩
  · rintro ⟨hw, -, ha, hb, hc⟩
    exact ⟨hw.symm, hw ▸ ha, hw ▸ hb, hc⟩

theorem opcodeRow_ext {r r' : OpcodeRow} (hr : r ∈ opcodeTable) (hr' : r' ∈ opcodeTable)
    (h : fieldOp r.matchBits = fieldOp r'.matchBits) : r = r' :=
  List.inj_on_of_nodup_map (opcodeTable_opcodes ▸ (by decide : opcodes.Nodup)) hr hr' h

theorem matching_row_unique {r r' : OpcodeRow} {w : Word} (hr : r ∈ opcodeTable) (hr' : r' ∈ opcodeTable)
    (h : r.matches w) (h' : r'.matches w) : r = r' :=
  opcodeRow_ext hr hr' (((matches_iff hr w).mp h).1.trans ((matches_iff hr' w).mp h').1.symm)

theorem passesChecks_iff_matches (w : Word) : PassesChecks w ↔ ∃ r ∈ opcodeTable, r.matches w := by
  constructor
  · intro hw
    obtain ⟨r, hr, hop⟩ : ∃ r ∈ opcodeTable, fieldOp r.matchBits = fieldOp w :=
      List.mem_map.mp (opcodeTable_opcodes ▸ hw.1)
    exact ⟨r, hr, (matches_iff hr w).mpr ⟨hop, hw⟩⟩
  · rintro ⟨r, hr, hm⟩
    exact ((matches_iff hr w).mp hm).2

/-- The word of every operation matches the row of its mnemonic. -/
theorem exists_row_of_instr (i : Instr) : Laws.OpcodeRow.Statement i :=
  match i with
  | .stb a v => Laws.OpcodeRow.stb a v
  | .ldb a => Laws.OpcodeRow.ldb a
  | .clrb => Laws.OpcodeRow.clrb
  | .xorr a b => Laws.OpcodeRow.xorr a b
  | .xors => Laws.OpcodeRow.xors
  | .ckf => Laws.OpcodeRow.ckf
  | .vfy => Laws.OpcodeRow.vfy
  | .loc => Laws.OpcodeRow.loc
  | .adds a b => Laws.OpcodeRow.adds a b
  | .addv a b => Laws.OpcodeRow.addv a b
  | .hexn c => Laws.OpcodeRow.hexn c
  | .decn c => Laws.OpcodeRow.decn c
  | .pow10 n => Laws.OpcodeRow.pow10 n
  | .hexr a b => Laws.OpcodeRow.hexr a b
  | .decr a b => Laws.OpcodeRow.decr a b

theorem mnemonic_of_matches {r : OpcodeRow} {i : Instr} (hr : r ∈ opcodeTable) (h : r.matches (encode i)) :
    r.mnemonic = i.mnemonic := by
  obtain ⟨r', hr', hname, h'⟩ := exists_row_of_instr i
  rw [matching_row_unique hr hr' h h', hname]

/-- The operands of a well-formed operation are the bytes of its word, as many as it uses. -/
theorem operandsOf_eq_take {i : Instr} (hi : i.wellFormed = true) :
    operandsOf i = [i.aByte.toNat, i.bByte.toNat].take (operandsOf i).length := by
  cases i with
  | clrb | xors | ckf | vfy | loc | hexn c | decn c => rfl
  | stb a v | ldb a | pow10 a =>
    have ha : fitsField a := by simpa [Instr.wellFormed] using hi
    simp [operandsOf, Instr.aByte, Instr.bByte, Nat.mod_eq_of_lt ha]
  | xorr a b | adds a b | addv a b | hexr a b | decr a b =>
    obtain ⟨ha, hb⟩ : fitsField a ∧ fitsField b := by simpa [Instr.wellFormed] using hi
    simp [operandsOf, Instr.aByte, Instr.bByte, Nat.mod_eq_of_lt ha, Nat.mod_eq_of_lt hb]

theorem operandsOf_decoded {w : Word} {i : Instr} (h : decode w = .ok i) :
    operandsOf i = [(fieldA w).toNat, (fieldB w).toNat].take (operandsOf i).length := by
  obtain ⟨-, ho⟩ := (decode_eq_ok_iff_fields w i).mp h
  obtain ⟨-, ha, hb, hi⟩ := (decodeOp_eq_ok_iff _ _ _ i).mp ho
  rw [ha, hb]
  exact operandsOf_eq_take hi

/-- Settles O5: legality by the four checks on one side and by the rows on the other; the row that matches is the one of the
operation's own word. -/
theorem wordLegalExactlyByProcedureAndTable : Obligations.WordLegalExactlyByProcedureAndTable := by
  intro w
  refine ⟨exists_decode_eq_error_iff w, (exists_decode_eq_ok_iff w).trans (passesChecks_iff_matches w), ?_,
    fun i => operandsOf_decoded, fun r hr r' hr' => matching_row_unique hr hr'⟩
  intro i hi r hr hm
  obtain ⟨rfl, -⟩ := (decode_eq_ok_iff w i).mp hi
  exact mnemonic_of_matches hr hm

end Sys2Proof
end

section
/-! Runs over a program: a list of well-formed commands is issued one command a step, and the block's state is the fold of
what each command does (30_encoding.md R46, 70_reset_and_hazards.md R105). -/

namespace Sys2Proof.Machine

/-- The state after an operation. -/
def State.after (s : State) (i : Instr) : State := { s with buf := bufAfter i s.buf }.finish (answer i s.buf)

theorem exec_eq_after (i : Instr) (s : State) : exec i s = .next (s.after i) := exec_eq_finish i s

/-- The state after a list of operations, one after the other. -/
def State.afterAll (s : State) (cmds : List Instr) : State := cmds.foldl State.after s

@[simp] theorem State.afterAll_nil (s : State) : s.afterAll [] = s := rfl

@[simp] theorem State.afterAll_cons (s : State) (i : Instr) (cmds : List Instr) :
    s.afterAll (i :: cmds) = (s.after i).afterAll cmds := rfl

theorem State.afterAll_append (s : State) (cmds cmds' : List Instr) :
    s.afterAll (cmds ++ cmds') = (s.afterAll cmds).afterAll cmds' := List.foldl_append

/-- An operation neither sees nor changes the host's list. -/
theorem State.after_with_host (s : State) (i : Instr) (l l' : List Access) :
    { { s with host := l }.after i with host := l' } = { s with host := l' }.after i := by
  unfold State.after
  cases answer i s.buf <;> rfl

@[simp] theorem State.after_buf (s : State) (i : Instr) : (s.after i).buf = bufAfter i s.buf := State.finish_buf _ _

theorem State.after_frame (s : State) (i : Instr) :
    (s.after i).host = s.host ∧ (s.after i).readData = s.readData := by
  obtain ⟨-, hhost, hread, -⟩ := State.finish_frame { s with buf := bufAfter i s.buf } (answer i s.buf)
  exact ⟨hhost, hread⟩

theorem State.afterAll_frame (s : State) (cmds : List Instr) :
    (s.afterAll cmds).host = s.host ∧ (s.afterAll cmds).readData = s.readData := by
  induction cmds generalizing s with
  | nil => exact ⟨rfl, rfl⟩
  | cons i cmds ih =>
    obtain ⟨hhost, hread⟩ := ih (s.after i)
    obtain ⟨hhost', hread'⟩ := s.after_frame i
    exact ⟨hhost.trans hhost', hread.trans hread'⟩

theorem State.after_of_answer_ok {s : State} {i : Instr} {r : Result} (h : answer i s.buf = .ok r) :
    (s.after i).res = r.res ∧ (s.after i).status = ⟨0, r.oor, r.matched⟩ := by
  rw [State.after, h]
  exact ⟨rfl, rfl⟩

/-- As many steps as commands run the program, and the rest of the host's list is still to come. -/
theorem run_program {cmds : List Instr} (hwf : ∀ i ∈ cmds, i.wellFormed = true) {s : State} {rest : List Access}
    (h : s.host = program cmds ++ rest) :
    Host.Core.run core cmds.length s = .next ({ s with host := rest }.afterAll cmds) := by
  induction cmds generalizing s with
  | nil =>
    obtain rfl : s.host = rest := h
    exact run_zero s
  | cons i cmds ih =>
    obtain ⟨hi, hcmds⟩ := List.forall_mem_cons.mp hwf
    have hstep : step s = .next ({ s with host := program cmds ++ rest }.after i) := by
      have hdecode := encodedInstructionDecodesBack i hi
      exact (stepRunsDecodedInstruction s (encode i) i _ h hdecode).trans (exec_eq_after i _)
    rw [List.length_cons, run_succ _ _ _ hstep, ih hcmds (State.after_frame _ i).1]
    exact congrArg (fun t : State => Host.Outcome.next (t.afterAll cmds)) (State.after_with_host s i _ rest)

end Sys2Proof.Machine
end

section
/-! `PUTS` as a list of `STB`s: the buffer, result and status it leaves (30_encoding.md R47, 40_buffer_ops.md R51). -/

namespace Sys2Proof.Machine

@[simp] theorem length_puts (i : Nat) (text : List Byte) : (puts i text).length = text.length := by
  induction text generalizing i with
  | nil => rfl
  | cons c cs ih => simp [puts, ih]

theorem puts_concat (i : Nat) (cs : List Byte) (c : Byte) :
    puts i (cs ++ [c]) = puts i cs ++ [.stb (i + cs.length) c] := by
  induction cs generalizing i with
  | nil => rfl
  | cons d cs ih => simp [puts, ih, Nat.add_assoc, Nat.add_comm 1]

theorem puts_wellFormed {i : Nat} {text : List Byte} (h : i + text.length ≤ 256) :
    ∀ cmd ∈ puts i text, cmd.wellFormed = true := by
  induction text generalizing i with
  | nil => simp [puts]
  | cons c cs ih =>
    rw [List.length_cons] at h
    have hi : fitsField i := by omega
    exact List.forall_mem_cons.mpr ⟨decide_eq_true hi, ih (by omega)⟩

/-- `STB` writes its byte at its index, where the buffer has one, and no other byte. -/
theorem byte_bufAfter_stb (a : Nat) (v : Byte) (m : Memory) (j : Nat) :
    (bufAfter (.stb a v) m).byte j = if j = a ∧ j < 128 then v else m.byte j := by
  by_cases ha : inBuffer a
  · rw [bufAfter, if_pos ha]
    by_cases hj : j = a
    · rw [hj, Memory.byte_write_same, if_pos ⟨rfl, ha⟩]
    · rw [Memory.byte_write_other m v hj, if_neg fun h => hj h.1]
  · rw [bufAfter, if_neg ha, if_neg]
    exact fun ⟨hj, hlt⟩ => ha (hj ▸ hlt)

/-- `STB` ends with `RES` 0 and either no error or RANGE. -/
theorem after_stb_res_status (s : State) (a : Nat) (v : Byte) :
    (s.after (.stb a v)).res = 0 ∧ (s.after (.stb a v)).status = ⟨if a < 128 then 0 else 2, false, false⟩ := by
  unfold State.after
  by_cases ha : a < 128
  · rw [answer, if_pos ha, if_pos ha]
    exact ⟨rfl, rfl⟩
  · rw [answer, if_neg ha, if_neg ha]
    exact ⟨rfl, rfl⟩

/-- The characters of the text that fall into the buffer stand there, and every other byte is as before. -/
theorem byte_afterAll_puts (s : State) (i : Nat) (text : List Byte) (j : Nat) :
    (s.afterAll (puts i text)).buf.byte j =
      if i ≤ j ∧ j < i + text.length ∧ j < 128 then text.getD (j - i) 0 else s.buf.byte j := by
  induction text generalizing i s with
  | nil =>
    rw [List.length_nil, if_neg (by omega)]
    rfl
  | cons c cs ih =>
    rw [puts, State.afterAll_cons, ih, State.after_buf, byte_bufAfter_stb, List.length_cons]
    obtain hj | rfl | hj := Nat.lt_trichotomy j i
    · rw [if_neg (by omega), if_neg (by omega), if_neg (by omega)]
    · rw [if_neg (by omega), Nat.sub_self]
      exact if_congr (by omega) rfl rfl
    · obtain ⟨k, rfl⟩ := Nat.exists_eq_add_of_lt hj
      have hk : i + k + 1 - (i + 1) = k := by omega
      have hk' : i + k + 1 - i = k + 1 := by omega
      rw [hk, hk', if_neg (c := _ ∧ _ < 128) (by omega), List.getD_cons_succ]
      exact if_congr (by omega) rfl rfl

/-- The last character's `STB` decides `RES` and `STATUS`. -/
theorem afterAll_puts_res_status (s : State) (i : Nat) {text : List Byte} (h : text ≠ []) :
    (s.afterAll (puts i text)).res = 0 ∧
      (s.afterAll (puts i text)).status = ⟨if i + text.length ≤ 128 then 0 else 2, false, false⟩ := by
  obtain rfl | ⟨cs, c, rfl⟩ := text.eq_nil_or_concat'
  · exact absurd rfl h
  · rw [puts_concat, State.afterAll_append, List.length_append]
    exact after_stb_res_status (s.afterAll (puts i cs)) (i + cs.length) c

/-- Settles O29: the run is the fold of the `STB`s, whose bytes and status are given above. -/
theorem putsStoresTheText : Obligations.PutsStoresTheText := by
  intro text i s rest hfit hne hhost
  have hrun := run_program (puts_wellFormed hfit) hhost
  rw [length_puts] at hrun
  obtain ⟨hh, hread⟩ := State.afterAll_frame { s with host := rest } (puts i text)
  obtain ⟨hres, hstatus⟩ := afterAll_puts_res_status { s with host := rest } i hne
  exact ⟨_, hrun, hh, hread, hres, hstatus, byte_afterAll_puts _ i text⟩

end Sys2Proof.Machine
end

section
/-! A sentence that carries the two hex digits of its body's XOR verifies (41_xor_checksum.md R60, 70_reset_and_hazards.md R97). -/

namespace Sys2Proof.Machine

open Sys2Proof.Safety

/-- The character of a hex digit's place is a hex digit of that value. -/
theorem digitValue_of_getElem? {n : Nat} {c : Byte} (h : hexDigits[n]? = some c) :
    c ∈ hexDigits ∧ digitValue hexDigits c = n := by
  have hmem := List.mem_of_getElem? h
  obtain ⟨hn, rfl⟩ := List.getElem?_eq_some_iff.mp h
  refine ⟨hmem, ?_⟩
  rw [digitValue, if_pos hmem]
  exact List.Nodup.idxOf_getElem (by decide) n hn

/-- `VFY` of a sentence whose field is in range and states its checksum: a match, with the checksum in both low bytes. -/
theorem vfyResult_of_true_field {m : Memory} {s e : Nat} (hm : Markers m s e) (he : e + 2 < 128)
    (hrange : FieldInRange m e) (hfield : fieldValue m e = (xorfold m (s + 1) e).toNat) :
    vfyResult m = .ok ⟨packBytes 0 0 (xorfold m (s + 1) e) (xorfold m (s + 1) e), false, true⟩ := by
  obtain ⟨r, o, hf, hr, ho⟩ := checksumField_terms m e he
  obtain rfl : r = xorfold m (s + 1) e := BitVec.eq_of_toNat_eq (hr.trans hfield)
  obtain rfl : o = false := ho.mpr hrange
  simp only [vfyResult, (sentenceMarkers_iff_markers m s e).mpr hm, hf, beq_self_eq_true]

/-- The buffer begins with these bytes. -/
def Begins (m : Memory) (text : List Byte) : Prop := ∀ j v, text[j]? = some v → m.byte j = v

/-- `PUTS 0` of a text that fits leaves a buffer that begins with it. -/
theorem begins_afterAll_puts (s : State) {text : List Byte} (h : text.length ≤ 128) :
    Begins (s.afterAll (puts 0 text)).buf text := by
  intro j v hj
  obtain ⟨hlt, rfl⟩ := List.getElem?_eq_some_iff.mp hj
  rw [byte_afterAll_puts, if_pos (by omega), Nat.sub_zero, List.getD_eq_getElem _ _ hlt]

/-- The sentence `$ body * hi lo`. -/
def sentenceOf (body : List Byte) (hi lo : Byte) : List Byte := 0x24#8 :: body ++ [0x2A#8, hi, lo]

theorem length_sentenceOf (body : List Byte) (hi lo : Byte) : (sentenceOf body hi lo).length = body.length + 4 := by
  simp [sentenceOf]

section
variable {m : Memory} {body : List Byte} {hi lo : Byte} (h : Begins m (sentenceOf body hi lo))
include h

theorem Begins.byte_body {k : Nat} (hk : k < body.length) : m.byte (1 + k) = body[k] :=
  h _ _ (by simp [sentenceOf, Nat.add_comm 1, List.getElem?_append_left hk])

/-- The three characters after the body. -/
theorem Begins.byte_field :
    m.byte (body.length + 1) = 0x2A#8 ∧ m.byte (body.length + 2) = hi ∧ m.byte (body.length + 3) = lo :=
  ⟨h _ _ (by simp [sentenceOf]), h _ _ (by simp [sentenceOf]), h _ _ (by simp [sentenceOf])⟩

theorem Begins.slice_body : m.slice 1 (1 + body.length) = body := by
  rw [Memory.slice_add]
  exact List.ext_getElem (by simp) fun k _ hk => by simpa using h.byte_body hk

theorem Begins.markers (hlen : body.length ≤ 124) (hstar : 0x2A#8 ∉ body) : Markers m 0 (body.length + 1) := by
  refine ⟨⟨Nat.le_refl 0, by omega, h 0 _ (by simp [sentenceOf]), fun j _ hj => absurd hj (Nat.not_lt_zero j)⟩,
    ⟨by omega, by omega, h.byte_field.1, fun j hj1 hj2 hj => hstar ?_⟩⟩
  obtain ⟨k, rfl⟩ := Nat.exists_eq_add_of_le hj1
  rw [Nat.zero_add, h.byte_body (by omega)] at hj
  exact hj ▸ List.getElem_mem _

/-- The field of the sentence states the number of which `hi` and `lo` are the two hex digits. -/
theorem Begins.fieldValue_eq {x : Nat} (hhi : hexDigits[x / 16]? = some hi) (hlo : hexDigits[x % 16]? = some lo) :
    FieldInRange m (body.length + 1) ∧ fieldValue m (body.length + 1) = x := by
  obtain ⟨-, hb1, hb2⟩ := h.byte_field
  obtain ⟨hmem1, hval1⟩ := digitValue_of_getElem? hhi
  obtain ⟨hmem2, hval2⟩ := digitValue_of_getElem? hlo
  rw [FieldInRange, fieldValue, hb1, hb2, hval1, hval2]
  exact ⟨⟨hmem1, hmem2⟩, Nat.div_add_mod' x 16⟩

/-- `VFY` accepts the sentence whose field states the XOR of its body. -/
theorem Begins.vfyResult_eq (hlen : body.length ≤ 124) (hstar : 0x2A#8 ∉ body)
    (hhi : hexDigits[(xorBytes body).toNat / 16]? = some hi) (hlo : hexDigits[(xorBytes body).toNat % 16]? = some lo) :
    vfyResult m = .ok ⟨packBytes 0 0 (xorBytes body) (xorBytes body), false, true⟩ := by
  have hxor : xorfold m (0 + 1) (body.length + 1) = xorBytes body := by
    rw [xorfold, Nat.zero_add, Nat.add_comm, h.slice_body]
  obtain ⟨hrange, hvalue⟩ := h.fieldValue_eq hhi hlo
  rw [← hxor]
  exact vfyResult_of_true_field (h.markers hlen hstar) (by omega) hrange (hvalue.trans (congrArg _ hxor.symm))

end

/-- The same byte in both low bytes of a result is 257 times that byte. -/
theorem packBytes_twice (x : Byte) : packBytes 0 0 x x = BitVec.ofNat 32 (257 * x.toNat) := by
  have hzero : (0 : Byte).toNat = 0 := rfl
  rw [packBytes_eq, hzero]
  exact congrArg _ (by omega)

/-- Settles O41: after CLRB and PUTS the buffer begins with the sentence, and VFY of such a buffer is a match. -/
theorem sentenceWithItsChecksumVerifies : Obligations.SentenceWithItsChecksumVerifies := by
  intro body hi lo s rest hlen hstar hhi hlo hhost
  have hsize := length_sentenceOf body hi lo
  have hwf : ∀ i ∈ .clrb :: puts 0 (sentenceOf body hi lo) ++ [.vfy], i.wellFormed = true :=
    List.forall_mem_append.mpr
      ⟨List.forall_mem_cons.mpr ⟨rfl, puts_wellFormed (by omega)⟩, List.forall_mem_singleton.mpr rfl⟩
  have hcount : (Instr.clrb :: puts 0 (sentenceOf body hi lo) ++ [Instr.vfy]).length = body.length + 6 := by
    simp [hsize]
  have hrun := run_program hwf hhost
  simp only [hcount, State.afterAll_append, State.afterAll_cons, State.afterAll_nil] at hrun
  have hfits : (sentenceOf body hi lo).length ≤ 128 := by omega
  have hbegins := begins_afterAll_puts ({ s with host := rest }.after .clrb) hfits
  obtain ⟨hres, hstatus⟩ := State.after_of_answer_ok (i := Instr.vfy) (hbegins.vfyResult_eq hlen hstar hhi hlo)
  refine ⟨_, hrun, ?_, ?_, hres.trans (packBytes_twice _)⟩
  · rw [AcceptedStrictly, hstatus]
    exact ⟨rfl, rfl, rfl⟩
  · simp only [State.afterAll_frame, State.after_frame]

end Sys2Proof.Machine
end

section
/-! What every operation's statement needs: its word from the bytes of its encoding, its whole next state from its answer, and
the answer where a marker is missing (30_encoding.md R40 to R43, 60_exceptions.md R80, R83). -/

namespace Sys2Proof.Machine

open Sys2Proof.Safety

/-- To see that a word is an operation's, compare its three bytes with those of the operation's encoding. -/
theorem hasWord_of_bytes {i : Instr} {op a b : Nat} (hop : BitVec.ofNat 8 op = i.opcode)
    (ha : BitVec.ofNat 8 a = i.aByte) (hb : BitVec.ofNat 8 b = i.bByte)
    (hwf : a < 256 → b < 256 → i.wellFormed = true) : HasWord i op a b :=
  hasWord_of_decodeOp i op a b fun hlta hltb => (decodeOp_eq_ok_iff _ _ _ i).mpr ⟨hop, ha, hb, hwf hlta hltb⟩

/-- An operation that answers a result writes its buffer, `RES` and `STATUS`, and nothing else. -/
theorem exec_of_answer_ok {i : Instr} {s : State} {v : Nat} {oor matched : Bool}
    (h : answer i s.buf = .ok ⟨BitVec.ofNat 32 v, oor, matched⟩) :
    exec i s = .next { ended s v oor matched with buf := bufAfter i s.buf } := by
  rw [exec_eq_finish, h]
  rfl

/-- An operation that answers an error has the effects of that error and no others (R80). -/
theorem exec_of_answer_error {i : Instr} {s : State} {e : ErrorCode} (h : answer i s.buf = .error e) :
    exec i s = .next (errored s e.code) := by
  rw [exec_eq_finish, bufAfter_of_answer_error h, h]
  rfl

/-- A scan that misses a marker answers `MARKER_NOT_FOUND` (R83). -/
theorem answer_of_markerCondition {i : Instr} {m : Memory} (h : MarkerCondition i m) :
    answer i m = .error .markerNotFound := by
  cases i with
  | ckf => simp only [answer, ckfResult, (find_iff_missing m Config.checksumMarker 0).mpr h]
  | xors => simp only [answer, xorsResult, (sentenceMarkers_iff_missing m _).mpr ⟨rfl, h⟩]
  | vfy => simp only [answer, vfyResult, (sentenceMarkers_iff_missing m _).mpr ⟨rfl, h⟩]
  | loc => simp only [answer, locResult, (sentenceMarkers_iff_missing m _).mpr ⟨rfl, h⟩]
  | _ => exact h.elim

end Sys2Proof.Machine
end

section
/-! The buffer operations STB, LDB, CLRB (40_buffer_ops.md R51 to R53). -/

namespace Sys2Proof.Machine

open Sys2Proof.Safety

/-- In a buffer in canonical form, storing the byte that stands at the index gives the same buffer. -/
theorem Memory.write_byte_self {m : Memory} (hm : m.wf = true) {a : Nat} (ha : inBuffer a) :
    m.write a (m.byte a) = m := by
  refine Memory.ext_of_wf _ _ (Memory.wf_write m a _ hm ha) hm fun j _ => ?_
  by_cases hj : j = a
  · rw [hj, Memory.byte_write_same]
  · exact Memory.byte_write_other m _ hj

/-- Settles O25: the word by its bytes, the stored byte by the rules of `Memory.write`, RANGE by the answer. -/
theorem stbStoresOneByte : Obligations.StbStoresOneByte := by
  intro a v s
  refine ⟨?_, fun ha => ?_, fun ha => ?_⟩
  · have hbyte : BitVec.ofNat 8 v.toNat = v := (BitVec.ofNat_toNat 8 v).trans (BitVec.setWidth_eq v)
    exact hasWord_of_bytes rfl rfl hbyte fun hlt _ => decide_eq_true hlt
  · have hbuf : bufAfter (.stb a v) s.buf = s.buf.write a v := if_pos ha
    refine ⟨s.buf.write a v, ?_, Memory.byte_write_same _ a v, fun j hj => Memory.byte_write_other _ v hj,
      fun hm => Memory.wf_write _ a v hm ha, ?_⟩
    · rw [← hbuf]
      exact exec_of_answer_ok (if_pos ha)
    · rintro hm rfl
      exact Memory.write_byte_self hm ha
  · exact exec_of_answer_error (e := .range) (if_neg (Nat.not_lt.mpr ha))

/-- Settles O26: the byte read is the answer, zero-extended to a word. -/
theorem ldbLoadsOneByte : Obligations.LdbLoadsOneByte := by
  intro a s
  refine ⟨?_, fun ha => ?_, fun ha => ?_⟩
  · exact hasWord_of_bytes rfl rfl rfl fun hlt _ => decide_eq_true hlt
  · have hanswer : answer (.ldb a) s.buf = .ok ⟨BitVec.ofNat 32 (s.buf.byte a).toNat, false, false⟩ := by
      rw [answer, ldbResult, if_pos ha, zext32_eq, Result.plain_eq]
    exact exec_of_answer_ok hanswer
  · exact exec_of_answer_error (e := .range) (if_neg (Nat.not_lt.mpr ha))

/-- A cleared buffer holds no byte other than 0. -/
theorem missing_fill_zero {c : Byte} (hc : c ≠ 0) (start : Nat) : Missing (Memory.fill fun _ => 0) c start :=
  fun j _ hj => by
    rw [Memory.byte_fill _ hj]
    exact hc.symm

/-- On a cleared buffer each of the four scans misses its first marker (R53). -/
theorem markerCondition_fill_zero {i : Instr} (hi : i ∈ [Instr.xors, .ckf, .vfy, .loc]) :
    MarkerCondition i (Memory.fill fun _ => 0) := by
  have hstart : MarkersMissing (Memory.fill fun _ => 0) := .inl (missing_fill_zero (by decide) 0)
  simp only [List.mem_cons, List.not_mem_nil, or_false] at hi
  obtain rfl | rfl | rfl | rfl := hi
  · exact hstart
  · exact missing_fill_zero (by decide) 0
  · exact hstart
  · exact hstart

/-- Settles O27: the buffer becomes a fill of zeros, in which no scan finds a marker. -/
theorem clrbZeroesTheBuffer : Obligations.ClrbZeroesTheBuffer := by
  intro s
  refine ⟨hasWord_of_bytes rfl rfl rfl fun _ _ => rfl, Memory.fill fun _ => 0, ?_, Memory.wf_fill _,
    fun j hj => Memory.byte_fill _ hj, ?_⟩
  · exact exec_of_answer_ok rfl
  · intro i hi t hbuf
    exact exec_of_answer_error (answer_of_markerCondition (hbuf ▸ markerCondition_fill_zero hi))

end Sys2Proof.Machine
end

section
/-! The five operations of 41_xor_checksum.md by their whole next states, and RANGE of every operation
(60_exceptions.md R84). -/

namespace Sys2Proof.Machine

open Sys2Proof.Safety

/-- An operation whose slice, index or checksum field does not lie in the buffer answers `RANGE` (R84). -/
theorem answer_of_rangeCondition {i : Instr} {m : Memory} (h : RangeCondition i m) : answer i m = .error .range := by
  cases i with
  | stb a v => exact if_neg (Nat.not_lt.mpr h)
  | ldb a => exact if_neg (Nat.not_lt.mpr h)
  | xorr a b => exact if_neg (Nat.not_le.mpr h)
  | adds a b => exact if_neg (Nat.not_le.mpr h)
  | addv a b => exact if_neg (Nat.not_le.mpr h)
  | hexr a b =>
    obtain hlen | hslice := h
    · exact if_pos hlen
    · rw [answer, hexrResult, if_neg (Nat.not_le.mpr hslice), ite_self]
  | decr a b =>
    obtain hlen | hslice := h
    · exact if_pos hlen
    · rw [answer, decrResult, if_neg (Nat.not_le.mpr hslice), ite_self]
  | ckf =>
    obtain ⟨e, hfirst, hcut⟩ := h
    simp only [answer, ckfResult, (find_iff_isFirst m Config.checksumMarker 0 e).mpr hfirst,
      checksumField_cut_off m e hcut]
  | vfy =>
    obtain ⟨s, e, hm, hcut⟩ := h
    simp only [answer, vfyResult, (sentenceMarkers_iff_markers m s e).mpr hm, checksumField_cut_off m e hcut]
  | _ => exact h.elim

/-- `XORR` of a slice in the buffer (R57). -/
theorem exec_xorr_fits {a b : Nat} (h : a + b ≤ 128) (st : State) :
    exec (.xorr a b) st = .next (ended st (xorfold st.buf a (a + b)).toNat false false) := by
  refine exec_of_answer_ok ?_
  rw [answer, xorrResult, if_pos h, zext32_eq, Result.plain_eq]

/-- A result of two bytes as a number. -/
theorem packBytes_two (b1 b0 : Byte) : packBytes 0 0 b1 b0 = BitVec.ofNat 32 (b0.toNat + 2 ^ 8 * b1.toNat) :=
  packBytes_eq 0 0 b1 b0

/-- The two low bytes of a result of two bytes. -/
theorem ofNat_two_bytes {b0 : Nat} (h : b0 < 256) (b1 : Nat) :
    (BitVec.ofNat 32 (b0 + 2 ^ 8 * b1)).extractLsb' 0 8 = BitVec.ofNat 8 b0 ∧
      (BitVec.ofNat 32 (b0 + 2 ^ 8 * b1)).extractLsb' 8 8 = BitVec.ofNat 8 b1 := by
  constructor <;> apply BitVec.eq_of_toNat_eq <;>
    simp only [BitVec.extractLsb'_toNat, BitVec.toNat_ofNat, Nat.shiftRight_eq_div_pow] <;> omega

section
variable {st : State} {s e : Nat}

/-- `XORS` where the markers are found (R58). -/
theorem exec_xors_of_markers (hm : Markers st.buf s e) :
    exec .xors st = .next (ended st (xorfold st.buf (s + 1) e).toNat false false) := by
  refine exec_of_answer_ok ?_
  simp only [answer, xorsResult, (sentenceMarkers_iff_markers _ s e).mpr hm, zext32_eq, Result.plain_eq]

theorem markers_bounds {m : Memory} (hm : Markers m s e) : s < e ∧ e < 128 :=
  sentenceMarkers_bounds m s e ((sentenceMarkers_iff_markers m s e).mpr hm)

/-- `LOC` where the markers are found (R61). -/
theorem exec_loc_of_markers (hm : Markers st.buf s e) :
    exec .loc st = .next (ended st (s + 2 ^ 8 * e) false false) := by
  obtain ⟨hlt, hend⟩ := markers_bounds hm
  refine exec_of_answer_ok ?_
  simp only [answer, locResult, (sentenceMarkers_iff_markers _ s e).mpr hm, packBytes_two, indexByte, Result.plain_eq,
    toNat_ofNat_of_fitsField (show s < 256 by omega), toNat_ofNat_of_fitsField (show e < 256 by omega)]

/-- `CKF` at the first `*`, its field in the buffer (R59). -/
theorem exec_ckf_of_isFirst (hfirst : IsFirst st.buf 0x2A#8 0 e) (he : e + 2 < 128) :
    ∃ oor, (oor = false ↔ FieldInRange st.buf e) ∧
      exec .ckf st = .next (ended st (fieldValue st.buf e + 2 ^ 8 * e) oor false) := by
  obtain ⟨r, oor, hfield, hr, hoor⟩ := checksumField_terms st.buf e he
  refine ⟨oor, hoor, exec_of_answer_ok ?_⟩
  simp only [answer, ckfResult, (find_iff_isFirst _ Config.checksumMarker 0 e).mpr hfirst, hfield, packBytes_two, hr,
    indexByte, Result.decoded_eq, toNat_ofNat_of_fitsField (show e < 256 by omega)]

/-- `VFY` where the markers are found and the field is in the buffer (R60). -/
theorem exec_vfy_of_markers (hm : Markers st.buf s e) (he : e + 2 < 128) :
    ∃ oor, (oor = false ↔ FieldInRange st.buf e) ∧
      exec .vfy st = .next (ended st ((xorfold st.buf (s + 1) e).toNat + 2 ^ 8 * fieldValue st.buf e) oor
        (decide ((xorfold st.buf (s + 1) e).toNat = fieldValue st.buf e))) := by
  obtain ⟨r, oor, hfield, hr, hoor⟩ := checksumField_terms st.buf e he
  have hmatched : (xorfold st.buf (s + 1) e == r) = decide ((xorfold st.buf (s + 1) e).toNat = r.toNat) :=
    decide_eq_decide.mpr BitVec.toNat_inj.symm
  refine ⟨oor, hoor, exec_of_answer_ok ?_⟩
  simp only [answer, vfyResult, (sentenceMarkers_iff_markers _ s e).mpr hm, hfield, packBytes_two, hmatched, hr]

end

/-- `HEXR` of a run within the length limit and in the buffer (43_field_decoder.md R71). -/
theorem exec_hexr_fits {a b : Nat} (hlen : b ≤ 8) (hslice : a + b ≤ 128) (st : State) :
    ∃ oor, (oor = false ↔ RunInRange hexDigits st.buf a b) ∧
      exec (.hexr a b) st = .next (ended st (runValue hexDigits 16 st.buf a b) oor false) := by
  obtain ⟨hvalue, hoor⟩ := hexRun_slice st.buf a b
  refine ⟨_, hoor, exec_of_answer_ok ?_⟩
  rw [answer, hexrResult, if_neg (Nat.not_lt.mpr hlen), if_pos hslice, decoderResult, hvalue, Result.decoded_eq]

/-- Settles O30: the answer is the fold of the slice, which is the XOR of its bytes. -/
theorem xorrFoldsTheSlice : Obligations.XorrFoldsTheSlice := by
  intro a b st
  refine ⟨?_, fun hfits => ⟨_, xorfold_isXor st.buf a b, exec_xorr_fits hfits st⟩, fun hcut => ?_⟩
  · exact hasWord_of_bytes rfl rfl rfl fun ha hb => Bool.and_eq_true_iff.mpr ⟨decide_eq_true ha, decide_eq_true hb⟩
  · exact exec_of_answer_error (answer_of_rangeCondition (i := .xorr a b) hcut)

/-- Settles O32: the answer is the fold between the markers. -/
theorem xorsFoldsBetweenTheMarkers : Obligations.XorsFoldsBetweenTheMarkers := by
  intro st
  refine ⟨hasWord_of_bytes rfl rfl rfl fun _ _ => rfl, fun s e hm => ?_, fun hmissing => ?_⟩
  · exact ⟨_, xorfold_between st.buf (markers_bounds hm).1, exec_xors_of_markers hm⟩
  · exact exec_of_answer_error (answer_of_markerCondition (i := .xors) hmissing)

/-- Settles O33: the answer is the field after the first `*`. -/
theorem ckfExtractsTheChecksumField : Obligations.CkfExtractsTheChecksumField := by
  intro st
  refine ⟨hasWord_of_bytes rfl rfl rfl fun _ _ => rfl, fun e hfirst he => exec_ckf_of_isFirst hfirst he,
    fun e hfirst hcut => ?_, fun hmissing => ?_⟩
  · exact exec_of_answer_error (answer_of_rangeCondition (i := .ckf) ⟨e, hfirst, hcut⟩)
  · exact exec_of_answer_error (answer_of_markerCondition (i := .ckf) hmissing)

/-- Settles O34: the computed checksum is the fold between the markers, the received one the field after them. -/
theorem vfyComparesComputedAndReceived : Obligations.VfyComparesComputedAndReceived := by
  intro st
  refine ⟨hasWord_of_bytes rfl rfl rfl fun _ _ => rfl, fun s e hm he => ?_, fun s e hm hcut => ?_,
    fun hmissing => ?_⟩
  · obtain ⟨oor, hoor, hexec⟩ := exec_vfy_of_markers hm he
    exact ⟨_, oor, _, xorfold_between st.buf (markers_bounds hm).1, hoor, decide_eq_true_iff, hexec⟩
  · exact exec_of_answer_error (answer_of_rangeCondition (i := .vfy) ⟨s, e, hm, hcut⟩)
  · exact exec_of_answer_error (answer_of_markerCondition (i := .vfy) hmissing)

/-- Settles O35: `XORS` and `XORR s+1, e-s-1` both end with the fold from `s+1` to `e`. -/
theorem locGivesTheMarkerIndices : Obligations.LocGivesTheMarkerIndices := by
  intro st
  refine ⟨hasWord_of_bytes rfl rfl rfl fun _ _ => rfl, fun s e hm => ?_, fun hmissing => ⟨?_, ?_⟩⟩
  · obtain ⟨hlt, hend⟩ := markers_bounds hm
    have hslice : s + 1 + (e - s - 1) = e := by omega
    refine ⟨hlt, Nat.le_of_lt_succ hend, exec_loc_of_markers hm, ?_⟩
    rw [exec_xors_of_markers hm, exec_xorr_fits (by omega), hslice]
  · exact exec_of_answer_error (answer_of_markerCondition (i := .loc) hmissing)
  · exact exec_of_answer_error (answer_of_markerCondition (i := .xors) hmissing)

/-- Settles O36: without the markers both end with MARKER_NOT_FOUND, with them O35 names the slice. -/
theorem xorsIsXorrBetweenTheIndicesOfLoc : Obligations.XorsIsXorrBetweenTheIndicesOfLoc := by
  intro st
  obtain ⟨-, hfound, hmissing⟩ := locGivesTheMarkerIndices st
  obtain ⟨hm, -⟩ | ⟨s, e, hm, -⟩ := sentenceMarkers_terms st.buf
  · obtain ⟨hloc, hxors⟩ := hmissing hm
    exact ⟨_, _, hloc, hxors, Iff.rfl, fun herr => absurd herr (by simp [errored])⟩
  · obtain ⟨hlt, hend, hloc, hxorr⟩ := hfound s e hm
    have hxors := exec_xors_of_markers hm
    obtain ⟨hlow, hhigh⟩ := ofNat_two_bytes (show s < 256 by omega) e
    exact ⟨_, _, hloc, hxors, Iff.rfl, fun _ =>
      ⟨s, e, hlow, hhigh, hlt, Nat.lt_succ_of_le hend, hxorr.symm.trans hxors⟩⟩

end Sys2Proof.Machine
end

section
/-! Each bit of the XOR checksum is a parity (41_xor_checksum.md R55). -/

namespace Sys2Proof.Machine

open Sys2Proof.Safety

/-- The number of the `n` bytes from index `lo` that have bit `k` set. -/
def bitCount (m : Memory) (lo k n : Nat) : Nat :=
  ((Finset.range n).filter fun j => (m.byte (lo + j)).getLsbD k = true).card

theorem bitCount_succ (m : Memory) (lo k n : Nat) :
    bitCount m lo k (n + 1) = bitCount m lo k n + ((m.byte (lo + n)).getLsbD k).toNat := by
  unfold bitCount
  rw [Finset.range_add_one, Finset.filter_insert]
  cases (m.byte (lo + n)).getLsbD k with
  | false => simp
  | true => simp

/-- Bit `k` of the fold is the parity of the number of bytes that have bit `k` set. -/
theorem getLsbD_xorfold (m : Memory) (lo k n : Nat) :
    (xorfold m lo (lo + n)).getLsbD k = decide (bitCount m lo k n % 2 = 1) := by
  induction n with
  | zero => simp [xorfold_self, bitCount]
  | succ n ih =>
    rw [xorfold_succ, BitVec.getLsbD_xor, ih, bitCount_succ]
    cases (m.byte (lo + n)).getLsbD k with
    | false => simp
    | true =>
      have hflip : (bitCount m lo k n + 1) % 2 = 1 ↔ ¬ bitCount m lo k n % 2 = 1 := by omega
      rw [Bool.toNat_true, decide_eq_decide.mpr hflip, decide_not, Bool.xor_true]

theorem getLsbD_zext32 (x : Byte) (k : Nat) : (zext32 x).getLsbD k = (decide (k < 8) && x.getLsbD k) := by
  rw [zext32, BitVec.getLsbD_setWidth]
  by_cases hk : k < 8
  · rw [decide_eq_true hk, decide_eq_true (show k < 32 by omega)]
  · rw [BitVec.getLsbD_of_ge x k (Nat.le_of_not_lt hk), Bool.and_false, Bool.and_false]

/-- Settles O31: `RES` is the fold, zero-extended, and each bit of the fold is a parity. -/
theorem xorrBitIsParity : Obligations.XorrBitIsParity := by
  intro a b st hfits
  refine ⟨_, exec_xorr_fits hfits st, fun k => ?_⟩
  rw [ended, ← zext32_eq, getLsbD_zext32, getLsbD_xorfold, bitCount]

end Sys2Proof.Machine
end

section
/-! What the operations on the sentence say about each other and about the sentence (41_xor_checksum.md R55 to R61,
70_reset_and_hazards.md R100 to R103). -/

namespace Sys2Proof.Machine

open Sys2Proof.Safety

/-- The `*` of the sentence is the first of the buffer exactly when none stands before the `$` (R103). -/
theorem markers_isFirst_iff {m : Memory} {s e : Nat} (hm : Markers m s e) :
    IsFirst m 0x2A#8 0 e ↔ ∀ j, j < s → m.byte j ≠ 0x2A#8 := by
  obtain ⟨⟨-, -, hstart, -⟩, hlt, hend, hstar, hbetween⟩ := hm
  refine ⟨fun ⟨_, _, _, hbefore⟩ j hj => hbefore j (Nat.zero_le j) (by omega), fun hnone => ?_⟩
  refine ⟨Nat.zero_le e, hend, hstar, fun j _ hj => ?_⟩
  rcases Nat.lt_trichotomy j s with hjs | rfl | hjs
  · exact hnone j hjs
  · rw [hstart]; decide
  · exact hbetween j hjs hj

theorem fieldValue_lt (m : Memory) (e : Nat) : fieldValue m e < 256 := by
  have h1 := digitValue_hex_lt (m.byte (e + 1))
  have h2 := digitValue_hex_lt (m.byte (e + 2))
  unfold fieldValue
  omega

/-- The index that `CKF` and `LOC` report (R103). -/
theorem resByte1_ended {b0 : Nat} (h : b0 < 256) (b1 : Nat) (st : State) (oor matched : Bool) :
    resByte1 (ended st (b0 + 2 ^ 8 * b1) oor matched) = BitVec.ofNat 8 b1 :=
  (ofNat_two_bytes h b1).2

/-- Settles O37: byte 1 of the results is the index of the `*` used, below 128 in both. -/
theorem ckfAndLocAgreeExactlyWithoutEarlyMarker : Obligations.CkfAndLocAgreeExactlyWithoutEarlyMarker := by
  intro st s e e' hm hfirst he'
  obtain ⟨hlt, hend⟩ := markers_bounds hm
  obtain ⟨oor, -, hckf⟩ := exec_ckf_of_isFirst hfirst he'
  refine ⟨_, _, exec_loc_of_markers hm, hckf, ?_⟩
  have hindex : BitVec.ofNat 8 e' = BitVec.ofNat 8 e ↔ e' = e := by
    rw [← BitVec.toNat_inj, toNat_ofNat_of_fitsField (show e' < 256 by omega),
      toNat_ofNat_of_fitsField (show e < 256 by omega)]
  rw [resByte1_ended (fieldValue_lt st.buf e'), resByte1_ended (show s < 256 by omega), hindex,
    ← markers_isFirst_iff hm]
  exact ⟨fun h => h ▸ hfirst, isFirst_unique hfirst⟩

/-- The checksum field is a run of two hex digits. -/
theorem runValue_field (m : Memory) (e : Nat) : runValue hexDigits 16 m (e + 1) 2 = fieldValue m e := by
  simp [runValue, fieldValue, Finset.sum_range_succ]

theorem runInRange_field (m : Memory) (e : Nat) : RunInRange hexDigits m (e + 1) 2 ↔ FieldInRange m e :=
  ⟨fun h => ⟨h 0 (by decide), h 1 (by decide)⟩, fun ⟨hhigh, hlow⟩ j hj => by
    obtain rfl | rfl : j = 0 ∨ j = 1 := by omega
    · exact hhigh
    · exact hlow⟩

/-- Settles O38: `HEXR e+1, 2` decodes the field that `CKF` decodes. -/
theorem ckfValueIsHexrAfterTheMarker : Obligations.CkfValueIsHexrAfterTheMarker := by
  intro st e hfirst he
  obtain ⟨oor, hoor, hckf⟩ := exec_ckf_of_isFirst hfirst he
  obtain ⟨oor', hoor', hhexr⟩ := exec_hexr_fits (a := e + 1) (b := 2) (by decide) (by omega) st
  rw [runInRange_field, ← hoor] at hoor'
  obtain rfl : oor' = oor := Bool.eq_iff_iff.mpr (by simpa using not_congr hoor')
  refine ⟨_, _, hckf, hhexr, ?_, rfl⟩
  have hlow := (ofNat_two_bytes (fieldValue_lt st.buf e) e).1
  rw [ended, ended, hlow, runValue_field]
  apply BitVec.eq_of_toNat_eq
  simp [Nat.mod_eq_of_lt (fieldValue_lt st.buf e)]

/-- A hex digit is the character at its value's place, and no other character is. -/
theorem hexDigits_getElem?_eq_some_iff (n : Nat) (c : Byte) :
    hexDigits[n]? = some c ↔ c ∈ hexDigits ∧ digitValue hexDigits c = n := by
  refine ⟨digitValue_of_getElem?, ?_⟩
  rintro ⟨hmem, rfl⟩
  rw [digitValue, if_pos hmem]
  exact List.getElem?_idxOf hmem

/-- The field is in range and has the value `x` exactly when it is the two hex digits of `x`. -/
theorem field_eq_iff_hexDigits (m : Memory) (e x : Nat) :
    FieldInRange m e ∧ x = fieldValue m e ↔
      hexDigits[x / 16]? = some (m.byte (e + 1)) ∧ hexDigits[x % 16]? = some (m.byte (e + 2)) := by
  have hlow := digitValue_hex_lt (m.byte (e + 2))
  have hsplit : x = fieldValue m e ↔
      digitValue hexDigits (m.byte (e + 1)) = x / 16 ∧ digitValue hexDigits (m.byte (e + 2)) = x % 16 := by
    unfold fieldValue
    omega
  rw [hexDigits_getElem?_eq_some_iff, hexDigits_getElem?_eq_some_iff, hsplit, FieldInRange, and_and_and_comm]

/-- Settles O39: the strict test asks for a field in range whose value is the checksum. -/
theorem strictAcceptanceExactlyTheTrueChecksum : Obligations.StrictAcceptanceExactlyTheTrueChecksum := by
  intro st s e x hm he hx
  obtain rfl := isXor_unique _ _ _ _ _ hx (xorfold_between st.buf (markers_bounds hm).1)
  obtain ⟨oor, hoor, hvfy⟩ := exec_vfy_of_markers hm he
  refine ⟨_, hvfy, ?_⟩
  rw [← field_eq_iff_hexDigits, ← hoor, and_comm]
  simp [AcceptedStrictly, ended]

/-- The fold tells two slices apart that differ in one byte. -/
theorem xorfold_ne_of_one_byte {m m' : Memory} {lo k : Nat} (hother : ∀ j, j ≠ k → m'.byte j = m.byte j)
    (hk : m'.byte k ≠ m.byte k) (hlo : lo ≤ k) (n : Nat) (hn : k < lo + n) :
    xorfold m' lo (lo + n) ≠ xorfold m lo (lo + n) := by
  induction n with
  | zero => omega
  | succ n ih =>
    rw [xorfold_succ, xorfold_succ]
    by_cases hlast : lo + n = k
    · have hbefore : xorfold m' lo (lo + n) = xorfold m lo (lo + n) :=
        congrArg xorBytes (Memory.slice_congr m' m lo n fun j hj => hother _ (by omega))
      rw [hbefore, hlast]
      exact fun h => hk ((BitVec.xor_right_inj _).mp h)
    · rw [hother _ hlast]
      exact fun h => ih (by omega) ((BitVec.xor_left_inj _).mp h)

/-- A byte between the markers that becomes no `*` leaves the markers where they are. -/
theorem markers_of_one_byte {m m' : Memory} {s e k : Nat} (hm : Markers m s e) (hsk : s < k) (hke : k < e)
    (hother : ∀ j, j ≠ k → m'.byte j = m.byte j) (hstar : m'.byte k ≠ 0x2A#8) : Markers m' s e := by
  obtain ⟨⟨hs0, hs, hsbyte, hsfirst⟩, he0, he, hebyte, hefirst⟩ := hm
  refine ⟨⟨hs0, hs, ?_, fun j h0 hj => ?_⟩, he0, he, ?_, fun j h0 hj => ?_⟩
  · rw [hother s (by omega)]
    exact hsbyte
  · rw [hother j (by omega)]
    exact hsfirst j h0 hj
  · rw [hother e (by omega)]
    exact hebyte
  · by_cases hjk : j = k
    · exact hjk ▸ hstar
    · rw [hother j hjk]
      exact hefirst j h0 hj

/-- `VFY` of a sentence ends with MATCH only where the field is in the buffer and states the checksum (R60). -/
theorem field_of_matched {st t : State} {s e : Nat} (hm : Markers st.buf s e) (hexec : exec .vfy st = .next t)
    (hmatched : t.status.matched = true) : e + 2 < 128 ∧ (xorfold st.buf (s + 1) e).toNat = fieldValue st.buf e := by
  by_cases he : e + 2 < 128
  · obtain ⟨oor, -, hvfy⟩ := exec_vfy_of_markers hm he
    cases hexec.symm.trans hvfy
    exact ⟨he, of_decide_eq_true hmatched⟩
  · have hcut := exec_of_answer_error (answer_of_rangeCondition (i := .vfy) ⟨s, e, hm, Nat.le_of_not_lt he⟩)
    cases hexec.symm.trans hcut
    cases hmatched

/-- Settles O40: the markers and the field stay, and the fold between the markers changes. -/
theorem changedBodyByteIsDetected : Obligations.ChangedBodyByteIsDetected := by
  intro st st' s e k t hm hsk hke hother hk hstar hexec hmatched
  obtain ⟨he, hvalue⟩ := field_of_matched hm hexec hmatched
  obtain ⟨oor, -, hvfy⟩ := exec_vfy_of_markers (markers_of_one_byte hm hsk hke hother hstar) he
  refine ⟨_, hvfy, rfl, decide_eq_false fun hvalue' => ?_⟩
  have hfield : fieldValue st'.buf e = fieldValue st.buf e := by
    rw [fieldValue, fieldValue, hother (e + 1) (by omega), hother (e + 2) (by omega)]
  have hsame : xorfold st'.buf (s + 1) e = xorfold st.buf (s + 1) e :=
    BitVec.eq_of_toNat_eq (hvalue'.trans (hfield.trans hvalue.symm))
  obtain ⟨n, rfl⟩ := Nat.exists_eq_add_of_le (Nat.succ_le_of_lt (markers_bounds hm).1)
  exact xorfold_ne_of_one_byte hother hk hsk n hke hsame

end Sys2Proof.Machine
end

section
/-! The additive checksum operations ADDS and ADDV by their whole next states, and the additive pair in closed form
(42_additive_checksum.md R62 to R64). -/

namespace Sys2Proof.Machine

open Sys2Proof.Safety

/-- `ADDS` of a slice in the buffer (R63). -/
theorem exec_adds_of_le {a b : Nat} (h : a + b ≤ 128) (s : State) :
    exec (.adds a b) s = .next (ended s
      ((addfold s.buf a (a + b)).1.toNat + 2 ^ 8 * (addfold s.buf a (a + b)).2.toNat) false false) := by
  rw [exec_adds_fits h, packBytes_two, Result.plain_eq, complete_eq_ended]

/-- `ADDV` of a slice that lies in the buffer with the two bytes after it (R64). -/
theorem exec_addv_of_le {a b : Nat} (h : a + b + 2 ≤ 128) (s : State) :
    exec (.addv a b) s = .next (ended s
      ((addfold s.buf a (a + b)).1.toNat + 2 ^ 8 * (addfold s.buf a (a + b)).2.toNat +
        2 ^ 16 * (s.buf.byte (a + b)).toNat + 2 ^ 24 * (s.buf.byte (a + b + 1)).toNat) false
      ((addfold s.buf a (a + b)).1 == s.buf.byte (a + b) &&
        (addfold s.buf a (a + b)).2 == s.buf.byte (a + b + 1))) := by
  have hslice : sliceFits a (b + 2) := h
  refine exec_of_answer_ok ?_
  rw [answer, addvResult, if_pos hslice, packBytes_eq]

/-- Settles O42: the answer is the fold of the slice, which is its additive pair. -/
theorem addsGivesTheAdditivePair : Obligations.AddsGivesTheAdditivePair := by
  intro a b s
  refine ⟨?_, fun hfits => ⟨_, _, addfold_isAdditivePair s.buf a b, exec_adds_of_le hfits s⟩, fun hcut => ?_⟩
  · exact hasWord_of_bytes rfl rfl rfl fun ha hb => Bool.and_eq_true_iff.mpr ⟨decide_eq_true ha, decide_eq_true hb⟩
  · exact exec_of_answer_error (answer_of_rangeCondition (i := .adds a b) hcut)

/-- Settles O44: the answer is the additive pair of the slice beside the two bytes after it, and `MATCH` compares the two. -/
theorem addvComparesWithTheStoredPair : Obligations.AddvComparesWithTheStoredPair := by
  intro a b s
  refine ⟨?_, fun hfits => ⟨_, _, _, addfold_isAdditivePair s.buf a b, ?_, exec_addv_of_le hfits s⟩, fun hcut => ?_⟩
  · exact hasWord_of_bytes rfl rfl rfl fun ha hb => Bool.and_eq_true_iff.mpr ⟨decide_eq_true ha, decide_eq_true hb⟩
  · rw [Bool.and_eq_true_iff, beq_iff_eq, beq_iff_eq]
  · exact exec_of_answer_error (answer_of_rangeCondition (i := .addv a b) hcut)

/-- One more term raises every weight by one: the weighted sum grows by the plain sum. -/
theorem weightedSum_succ (f : Nat → Nat) (n : Nat) :
    ∑ j ∈ Finset.range (n + 1), (n + 1 - j) * f j =
      ∑ j ∈ Finset.range n, (n - j) * f j + ∑ j ∈ Finset.range (n + 1), f j := by
  have hweight : ∀ j ∈ Finset.range (n + 1), (n + 1 - j) * f j = (n - j) * f j + f j := fun j hj => by
    rw [Nat.sub_add_comm (Finset.mem_range_succ_iff.mp hj), Nat.succ_mul]
  have hlast : ∑ j ∈ Finset.range (n + 1), (n - j) * f j = ∑ j ∈ Finset.range n, (n - j) * f j := by
    rw [Finset.sum_range_succ, Nat.sub_self, Nat.zero_mul, Nat.add_zero]
  rw [Finset.sum_congr rfl hweight, Finset.sum_add_distrib, hlast]

/-- `ckA` is the sum of the bytes, modulo 256. -/
theorem addfold_fst_toNat (m : Memory) (lo n : Nat) :
    (addfold m lo (lo + n)).1.toNat = (∑ j ∈ Finset.range n, (m.byte (lo + j)).toNat) % 256 := by
  induction n with
  | zero => simp [addfold_self]
  | succ n ih => rw [addfold_succ, addStep, BitVec.toNat_add, ih, Nat.mod_add_mod, Finset.sum_range_succ]

/-- `ckB` is the sum of the bytes, each weighted by its distance from the end of the slice, modulo 256. -/
theorem addfold_snd_toNat (m : Memory) (lo n : Nat) :
    (addfold m lo (lo + n)).2.toNat = (∑ j ∈ Finset.range n, (n - j) * (m.byte (lo + j)).toNat) % 256 := by
  induction n with
  | zero => simp [addfold_self]
  | succ n ih =>
    have hstep : (addfold m lo (lo + (n + 1))).2 = (addfold m lo (lo + n)).2 + (addfold m lo (lo + (n + 1))).1 := by
      rw [addfold_succ, addStep]
    rw [hstep, BitVec.toNat_add, ih, addfold_fst_toNat, ← Nat.add_mod, weightedSum_succ]

/-- Settles O43: the two bytes of the answer are the fold of the slice, of which both parts have a closed form. -/
theorem addsClosedForm : Obligations.AddsClosedForm := by
  intro a b s hfits
  rw [exec_adds_of_le hfits, addfold_fst_toNat, addfold_snd_toNat]

end Sys2Proof.Machine
end

section
/-! The field decoder operations HEXN, DECN, POW10, HEXR and DECR by their whole next states, and the parameter
`HEX_LOWERCASE` (43_field_decoder.md R65 to R72, 93_implementation_defined.md U1). -/

namespace Sys2Proof.Machine

open Sys2Proof.Safety

/-- A character operand's field holds the character (30_encoding.md R41). -/
theorem ofNat_toNat_byte (c : Byte) : BitVec.ofNat 8 c.toNat = c :=
  (BitVec.ofNat_toNat 8 c).trans (BitVec.setWidth_eq c)

/-- A run whose two operands fit their fields is well formed (30_encoding.md R41). -/
theorem both_fitField {a b : Nat} (ha : a < 256) (hb : b < 256) :
    (decide (fitsField a) && decide (fitsField b)) = true :=
  Bool.and_eq_true_iff.mpr ⟨decide_eq_true ha, decide_eq_true hb⟩

/-- An operation that answers a decoder's value and flag ends with them, without MATCH. -/
theorem exec_of_answer_decoder {i : Instr} {s : State} {d : Nat × Bool} (h : answer i s.buf = decoderResult d) :
    exec i s = .next { ended s d.1 d.2 false with buf := bufAfter i s.buf } :=
  exec_of_answer_ok h

/-- `DECR` of a run within the length limit and in the buffer (R72). -/
theorem exec_decr_fits {a b : Nat} (hlen : b ≤ 9) (hslice : a + b ≤ 128) (s : State) :
    ∃ oor, (oor = false ↔ RunInRange decimalDigits s.buf a b) ∧
      exec (.decr a b) s = .next (ended s (runValue decimalDigits 10 s.buf a b) oor false) := by
  obtain ⟨hvalue, hoor⟩ := decRun_slice s.buf b a (Nat.le_succ_of_le hlen)
  refine ⟨_, hoor, ?_⟩
  rw [← hvalue]
  refine exec_of_answer_decoder ?_
  rw [answer, decrResult, if_neg (Nat.not_lt.mpr hlen), if_pos hslice]

/-- A run of at most `k` digits of a base is below `base^k`. -/
theorem runValue_lt_of_le {digits : List Byte} {base : Nat} (hd : ∀ c, digitValue digits c < base) (m : Memory)
    (lo : Nat) {n k : Nat} (h : n ≤ k) : runValue digits base m lo n < base ^ k :=
  (runValue_lt digits base hd m n lo).trans_le (Nat.pow_le_pow_right (Nat.zero_lt_of_lt (hd 0)) h)

/-- Settles O46: the answer is `nib`, which is the character's place in the alphabet. -/
theorem hexnDecodesOneHexDigit : Obligations.HexnDecodesOneHexDigit := by
  intro c s
  refine ⟨?_, decide (c ∉ hexDigits), decide_eq_false_iff_not.trans not_not, ?_⟩
  · exact hasWord_of_bytes rfl (ofNat_toNat_byte c) rfl fun _ _ => rfl
  · exact exec_of_answer_decoder (i := .hexn c) (congrArg decoderResult (nib_eq c))

/-- Settles O47: the answer is `dig`, which is the character's place in the alphabet. -/
theorem decnDecodesOneDecimalDigit : Obligations.DecnDecodesOneDecimalDigit := by
  intro c s
  refine ⟨?_, decide (c ∉ decimalDigits), decide_eq_false_iff_not.trans not_not, ?_⟩
  · exact hasWord_of_bytes rfl (ofNat_toNat_byte c) rfl fun _ _ => rfl
  · exact exec_of_answer_decoder (i := .decn c) (congrArg decoderResult (dig_eq c))

/-- Settles O48: the answer is the table's entry, or 0 out of range where the table has none. -/
theorem pow10LooksUpThePower : Obligations.Pow10LooksUpThePower := by
  intro n s
  refine ⟨?_, fun hn => ?_, fun hn => ?_⟩
  · exact hasWord_of_bytes rfl rfl rfl fun hlt _ => decide_eq_true hlt
  · exact exec_of_answer_decoder (i := .pow10 n) (congrArg decoderResult (pow10_eq (Nat.lt_succ_of_le hn)))
  · exact exec_of_answer_decoder (i := .pow10 n) (congrArg decoderResult (pow10_out_of_range hn))

/-- Settles O49: a run that fits is the sum of its digits' weights, below 16^8; any other run ends with RANGE. -/
theorem hexrConvertsTheHexRun : Obligations.HexrConvertsTheHexRun := by
  intro a b s
  refine ⟨?_, fun hlen hslice => ?_, fun hcut => ?_⟩
  · exact hasWord_of_bytes rfl rfl rfl both_fitField
  · obtain ⟨oor, hoor, hexec⟩ := exec_hexr_fits hlen hslice s
    exact ⟨oor, hoor, runValue_lt_of_le digitValue_hex_lt s.buf a hlen, hexec⟩
  · exact exec_of_answer_error (answer_of_rangeCondition (i := .hexr a b) hcut)

/-- Settles O50: a run that fits is the sum of its digits' weights, below 10^9; any other run ends with RANGE. -/
theorem decrConvertsTheDecimalRun : Obligations.DecrConvertsTheDecimalRun := by
  intro a b s
  refine ⟨?_, fun hlen hslice => ?_, fun hcut => ?_⟩
  · exact hasWord_of_bytes rfl rfl rfl both_fitField
  · obtain ⟨oor, hoor, hexec⟩ := exec_decr_fits hlen hslice s
    exact ⟨oor, hoor, Nat.le_of_lt_succ (runValue_lt_of_le digitValue_decimal_lt s.buf a hlen), hexec⟩
  · exact exec_of_answer_error (answer_of_rangeCondition (i := .decr a b) hcut)

/-- Settles O51: `a` to `f` are neither `0` to `9` nor `A` to `F`, so only the last test decides; for any other
character that test fails with `accept` as it does with `reject`. -/
theorem lowercaseParameterMovesSixCharactersOnly : Obligations.LowercaseParameterMovesSixCharactersOnly := by
  intro c
  by_cases hlower : 0x61 ≤ c.toNat ∧ c.toNat ≤ 0x66
  · have hdigit : ¬ (0x30 ≤ c.toNat ∧ c.toNat ≤ 0x39) := by omega
    have hupper : ¬ (0x41 ≤ c.toNat ∧ c.toNat ≤ 0x46) := by omega
    rw [if_pos hlower, nibWith, if_neg hdigit, if_neg hupper, if_pos ⟨rfl, hlower⟩]
  · have haccept : ¬ (Config.HexLowercase.accept = .accept ∧ 0x61 ≤ c.toNat ∧ c.toNat ≤ 0x66) :=
      fun h => hlower h.2
    have hreject : ¬ (Config.hexLowercase = .accept ∧ 0x61 ≤ c.toNat ∧ c.toNat ≤ 0x66) := fun h => hlower h.2
    rw [if_neg hlower, nib, nibWith, nibWith, if_neg haccept, if_neg hreject]

end Sys2Proof.Machine
end

section
/-! Words that end with an error (60_exceptions.md): which state an error leaves (R80, R85), the idle step (R90), and the
conditions under which an operation ends with each error (R82 to R84). -/

namespace Sys2Proof.Machine

open Sys2Proof.Safety

/-- Settles O9: a step with no access to serve is the idle step. -/
theorem idleStepChangesNothing : Obligations.IdleStepChangesNothing :=
  fun _ h => step_idle h

/-- A word that fails a check of the decode ends with `ILLEGAL` (R85). -/
theorem wordAnswer_of_illegal {w : Word} (h : IllegalByProcedure w) (m : Memory) :
    wordAnswer w m = .error .illegal := by
  obtain ⟨e, he⟩ := (exists_decode_eq_error_iff w).mpr h
  rw [wordAnswer, he]

/-- A word that ends with an error leaves the buffer alone, whether it is illegal or its operation fails (R80). -/
theorem wordBuf_of_wordAnswer_error {w : Word} {m : Memory} {e : ErrorCode} (h : wordAnswer w m = .error e) :
    wordBuf w m = m := by
  unfold wordAnswer at h
  unfold wordBuf
  cases hd : decode w with
  | ok i =>
    rw [hd] at h
    exact bufAfter_of_answer_error h
  | error _ => rfl

/-- A word that ends with an error has the effects of that error and no others (R80). -/
theorem afterWord_of_wordAnswer_error {s : State} {w : Word} {e : ErrorCode} (h : wordAnswer w s.buf = .error e) :
    s.afterWord w = errored s e.code := by
  rw [State.afterWord, wordBuf_of_wordAnswer_error h, h]
  rfl

/-- Settles O6: the illegal word's answer is the error `ILLEGAL`, whose code is 3. -/
theorem illegalWordOnlyReportsIllegal : Obligations.IllegalWordOnlyReportsIllegal := by
  intro s w rest h hw
  have hafter : { s with host := rest }.afterWord w = errored { s with host := rest } 3 :=
    afterWord_of_wordAnswer_error (s := { s with host := rest }) (wordAnswer_of_illegal hw s.buf)
  rw [step_afterWord h, hafter]

/-- Settles O22: `ERR` is not 0 only where the word's answer is an error, and the error leaves its own code. -/
theorem errorWritesOnlyResAndStatus : Obligations.ErrorWritesOnlyResAndStatus := by
  intro s t w rest h hstep herr
  cases (step_afterWord h).symm.trans hstep
  obtain ⟨e, he⟩ := answer_error_of_finish_err herr
  rw [afterWord_of_wordAnswer_error he]
  rfl

/-- An operation under neither of its error conditions answers a result. -/
theorem answer_ok_of_no_condition {i : Instr} {m : Memory} (hmarker : ¬ MarkerCondition i m)
    (hrange : ¬ RangeCondition i m) : ∃ r, answer i m = .ok r := by
  cases i with
  | stb a v => exact ⟨_, if_pos (Nat.not_le.mp hrange)⟩
  | ldb a => exact ⟨_, if_pos (Nat.not_le.mp hrange)⟩
  | xorr a b => exact ⟨_, if_pos (Nat.not_lt.mp hrange)⟩
  | adds a b => exact ⟨_, if_pos (Nat.not_lt.mp hrange)⟩
  | addv a b => exact ⟨_, if_pos (Nat.not_lt.mp hrange)⟩
  | hexr a b =>
    obtain ⟨hlen, hslice⟩ := not_or.mp hrange
    exact ⟨_, (if_neg hlen).trans (if_pos (Nat.not_lt.mp hslice))⟩
  | decr a b =>
    obtain ⟨hlen, hslice⟩ := not_or.mp hrange
    exact ⟨_, (if_neg hlen).trans (if_pos (Nat.not_lt.mp hslice))⟩
  | xors =>
    obtain ⟨hm, -⟩ | ⟨s, e, -, h⟩ := sentenceMarkers_terms m
    · exact absurd hm hmarker
    · exact ⟨_, by rw [answer, xorsResult, h]⟩
  | loc =>
    obtain ⟨hm, -⟩ | ⟨s, e, -, h⟩ := sentenceMarkers_terms m
    · exact absurd hm hmarker
    · exact ⟨_, by rw [answer, locResult, h]⟩
  | ckf =>
    obtain ⟨hm, -⟩ | ⟨e, hfirst, hcut, -⟩ | ⟨_, _, _, -, -, -, -, h⟩ := ckfResult_cases m
    · exact absurd hm hmarker
    · exact absurd ⟨e, hfirst, hcut⟩ hrange
    · exact ⟨_, h⟩
  | vfy =>
    obtain ⟨hm, -⟩ | ⟨s, e, hm, hcut, -⟩ | ⟨_, _, _, _, -, -, -, -, h⟩ := vfyResult_cases m
    · exact absurd hm hmarker
    · exact absurd ⟨s, e, hm, hcut⟩ hrange
    · exact ⟨_, h⟩
  | clrb | hexn _ | decn _ | pow10 _ => exact ⟨_, rfl⟩

/-- The three ways an operation ends (R82 to R84). -/
theorem answer_cases (i : Instr) (m : Memory) :
    (MarkerCondition i m ∧ answer i m = .error .markerNotFound) ∨
    (RangeCondition i m ∧ answer i m = .error .range) ∨
    ∃ r, answer i m = .ok r := by
  by_cases hmarker : MarkerCondition i m
  · exact .inl ⟨hmarker, answer_of_markerCondition hmarker⟩
  · by_cases hrange : RangeCondition i m
    · exact .inr (.inl ⟨hrange, answer_of_rangeCondition hrange⟩)
    · exact .inr (.inr (answer_ok_of_no_condition hmarker hrange))

theorem answer_eq_markerNotFound_iff (i : Instr) (m : Memory) :
    answer i m = .error .markerNotFound ↔ MarkerCondition i m := by
  refine ⟨fun h => ?_, answer_of_markerCondition⟩
  obtain ⟨hmarker, -⟩ | ⟨-, h'⟩ | ⟨r, h'⟩ := answer_cases i m
  · exact hmarker
  · cases h.symm.trans h'
  · cases h.symm.trans h'

theorem answer_eq_range_iff (i : Instr) (m : Memory) : answer i m = .error .range ↔ RangeCondition i m := by
  refine ⟨fun h => ?_, answer_of_rangeCondition⟩
  obtain ⟨-, h'⟩ | ⟨hrange, -⟩ | ⟨r, h'⟩ := answer_cases i m
  · cases h.symm.trans h'
  · exact hrange
  · cases h.symm.trans h'

theorem ErrorCode.code_inj {e e' : ErrorCode} : e.code = e'.code ↔ e = e' := by
  cases e <;> cases e' <;> decide

/-- `ERR` tells exactly which error an operation ended with (R82). -/
theorem finish_err_eq_code_iff (s : State) (o : Except ErrorCode Result) (e : ErrorCode) :
    (s.finish o).status.err = e.code ↔ o = .error e := by
  cases o with
  | ok r => exact ⟨fun h => absurd h.symm e.code_ne_zero, nofun⟩
  | error x =>
    rw [Except.error.injEq]
    exact ErrorCode.code_inj

theorem zero_mem_errCodes (i : Instr) : 0 ∈ errCodes i := by
  cases i <;> exact List.mem_cons_self

theorem one_mem_errCodes {i : Instr} {m : Memory} (h : MarkerCondition i m) : 1 ∈ errCodes i := by
  cases i with
  | xors | ckf | vfy | loc => decide
  | _ => exact h.elim

theorem two_mem_errCodes {i : Instr} {m : Memory} (h : RangeCondition i m) : 2 ∈ errCodes i := by
  cases i with
  | clrb | xors | loc | hexn _ | decn _ | pow10 _ => exact h.elim
  | _ => simp [errCodes]

/-- However an operation ends, its `ERR` is one of the codes tabulated for it (10_state.md R17). -/
theorem finish_answer_err_mem_errCodes (i : Instr) (m : Memory) (s : State) :
    (s.finish (answer i m)).status.err ∈ errCodes i := by
  obtain ⟨hmarker, h⟩ | ⟨hrange, h⟩ | ⟨r, h⟩ := answer_cases i m <;> rw [h]
  · exact one_mem_errCodes hmarker
  · exact two_mem_errCodes hrange
  · exact zero_mem_errCodes i

/-- Settles O23: `ERR` is the code of the operation's answer, and each error is the answer exactly under its condition. -/
theorem errorCodesExactlyAsTabulated : Obligations.ErrorCodesExactlyAsTabulated := by
  intro i s
  refine ⟨_, exec_eq_finish i s, ?_, ?_, finish_answer_err_mem_errCodes i s.buf _⟩
  · exact (finish_err_eq_code_iff _ _ .markerNotFound).trans (answer_eq_markerNotFound_iff i s.buf)
  · exact (finish_err_eq_code_iff _ _ .range).trans (answer_eq_range_iff i s.buf)

end Sys2Proof.Machine
end

section
/-! The worked encodings (30_encoding.md section 6). -/

namespace Sys2Proof

/-- Settles O1: by the inversion of the decoder, each row says that its word is the encoding of its command and that the
command is well formed. -/
theorem workedEncodingsDecode : Obligations.WorkedEncodingsDecode := by
  unfold Obligations.WorkedEncodingsDecode
  simp only [decode_eq_ok_iff]
  decide

end Sys2Proof
end
